-- ==== Sys2Proof/Word.lean ====
section
/-!
DEFINITION. The widths of the engine's values (`00_scope.md` R6, R7; `30_encoding.md` R54, R57).
-/

namespace Sys2Proof

/-- One line level: 0 is low, 1 is high (R7). -/
abbrev Bit := BitVec 1

/-- `XLEN` = 32: a scalar register or a returned integer, signed two's complement (R6). -/
abbrev Word := BitVec 32

/-- The 24-bit unsigned field an exchange accumulates (R19, R60). -/
abbrev Raw := BitVec 24

/-- A command word `cmd[10:0]` (R54). -/
abbrev Command := BitVec 11

/-- A response word `resp[33:0]` (R57). -/
abbrev Response := BitVec 34

end Sys2Proof
end

