-- ==== Sys2Proof/Machine/Params.lean ====
section
/-!
DEFINITION. The parameters that `00_scope.md` R6 gives a value.
-/

namespace Sys2Proof.Machine

/-- `N_DATA`: the clock pulses of an exchange that carry data (R6). -/
def nData : Nat := 24

/-- The table `GAIN_PULSES` (R6, R62): gain setting to extra clock pulses. It is the source's and normative; it is kept as a
table because its literals are unaudited (D23), and it is not to be corrected by what is known of the real part (GK1). -/
def gainPulsesTable : List (BitVec 8 × BitVec 2) :=
  [(128#8, 1#2), (64#8, 2#2), (32#8, 3#2)]

/-- `OFFSET_INIT`: `offset` after construction (R6, R28; the spec's decision D7). -/
def offsetInit : Word := 0#32

/-- The two edges a line can make. -/
inductive Edge where
  | falling
  | rising
deriving DecidableEq, Repr

/-- `IRQ_EDGE`: the edge of `DOUT` that raises the ready interrupt (R6, R104; the spec's decision D17; log 17). -/
def irqEdge : Edge := .falling

end Sys2Proof.Machine
end

