-- ==== Sys2Proof/Machine/Flags.lean ====
section
/-!
DEFINITION. The engine has no arithmetic flags and no condition codes, and no operation sets one (`10_state.md` R22). What the
spec has in their place: the ready condition, which is the level of the data line when it is sampled and not a stored flag
(R22, R41), and the edge that sets the pending latch (`60_exceptions.md` R104).
-/

namespace Sys2Proof.Machine

/-- Ready is the low level (R41, R72). -/
def isLow (level : Bit) : Bool :=
  level == 0#1

/-- Does the line make the edge `e` when it goes from level `a` to level `b`? -/
def makesEdge (e : Edge) (a b : Bit) : Bool :=
  match e with
  | .falling => a == 1#1 && b == 0#1
  | .rising => a == 0#1 && b == 1#1

/-- Does the line, from level `d` on, make the interrupt's edge while it takes these levels in order (R104)? -/
def edgeSeen (d : Bit) : List Bit → Bool
  | [] => false
  | l :: ls => makesEdge irqEdge d l || edgeSeen l ls

/-- The level the line is left at. -/
def settle (d : Bit) : List Bit → Bit
  | [] => d
  | l :: ls => settle l ls

end Sys2Proof.Machine
end

