-- ==== Sys2Proof/Config.lean ====
section
/-!
DEFINITION. What no rule of the spec fixes: the OPEN parameters of `00_scope.md` R6 and the free values. Every constant of
this file that is `opaque` has no body, so no proof can see its value: a theorem holds whatever it is. The parameters that HAVE a
value in R6 (the gain table, `OFFSET_INIT`, `IRQ_EDGE`) are in `Sys2Proof/Machine/Params.lean`.
-/

namespace Sys2Proof

/-- One act of the interrupt handler, which is host software (R107, R112). -/
inductive HandlerStep where
  /-- Issue IS_READY. -/
  | isReady
  /-- Issue READ if the operation before answered true; else nothing. -/
  | readIfReady
  /-- Issue some other command word. -/
  | issue (cmd : Command)
deriving DecidableEq, Repr

/-- What happens outside the engine in the gap between two of its steps: the converter may act there (R75, D27), and so may the
host. DESIGN CHOICE (log 2, log 8, log 9, log 10, log 12; safe): everything the outside may do is an input. -/
structure Gap where
  /-- The levels `DOUT` takes in the gap, in order; none when the converter leaves the line alone (R33, R47). -/
  levels : List Bit
  /-- The commands the main context issues in the gap (R4, R9, R48). -/
  cmds : List Command
  /-- The host enables (`some true`) or disables (`some false`) the ready interrupt, or leaves it (R105). -/
  irqSet : Option Bool
  /-- When the handler's entry and a main-context command fall together after the gap, does the handler go first (R101)? -/
  handlerFirst : Bool
  /-- What the host's interrupt context will issue at its coming entries, if the host decides anew in this gap (R9; log 8). -/
  handler : Option (List HandlerStep)
  /-- How long the platform stalls the engine here, in the unit of `T_PULSE` (R129, R130). The model has no time: no step reads it, only the
  premise on the window does (log 14). -/
  stall : Nat
deriving DecidableEq, Repr, Inhabited

/-- The value each element has after a hardware reset that the spec leaves unspecified (R28, R117). -/
structure ResetDraw where
  offset : Word
  lastValue : Word
  gain : BitVec 2
  sh : Raw
  sck : Bit
deriving DecidableEq, Repr, Inhabited

namespace Config

/-- What happens outside the engine after step `n`, where no script says it: free (R47, U7; log 2, log 19; safe). -/
opaque gap : Nat → Gap

/-- `LAST_INIT` of R6 and R28: the one unspecified value NEW draws for `last_value` (D8, U6; log 6; safe). -/
opaque lastInit : Nat → Word

/-- `ANY_i32` of R8: the data a READ answers when it is issued while not ready and does nothing (R74 (a); log 5; safe). -/
opaque anyI32 : Nat → Word

/-- Which of its two outcomes a not-ready READ takes at step `n`: `true` is the ungated exchange (b), `false` the no-op (a) (R74,
D11; log 5; safe). -/
opaque ungatedRead : Nat → Bool

/-- The unspecified elements after a hardware reset that comes after step `n` (R28, R117, U10; log 11; safe). -/
opaque afterReset : Nat → ResetDraw

/-- What the engine samples at step `n` where the lines are not configured: free (R127; log 26; safe). -/
opaque strayLevel : Nat → Bit

/-- `T_PULSE`: the hold of each clock half-period (R6, R113). OPEN; the model has no time (D15; log 14). -/
opaque tPulse : Nat

/-- `T_HIGH_MIN`: the converter's minimum clock high width (R6). OPEN (D15; log 14). -/
opaque tHighMin : Nat

/-- `T_LOW_MIN`: the converter's minimum clock low width (R6). OPEN (D15; log 14). -/
opaque tLowMin : Nat

/-- `T_TRAIN_MAX`: the converter's maximum pulse-train window (R6). OPEN (D15; log 14). -/
opaque tTrainMax : Nat

end Config

end Sys2Proof
end

