-- ==== Sys2Proof/Machine/Operands.lean ====
section
/-!
DEFINITION. Operand forms: the gain operand, sample assembly and sign extension (`30_encoding.md` R56, R60, R61, R62) and the
response word (R57).
-/

namespace Sys2Proof.Machine

/-- The gain operand decode of R62: a look-up in `GAIN_PULSES`; any other value has no image. -/
def gainPulses (arg : BitVec 8) : Option (BitVec 2) :=
  gainPulsesTable.lookup arg

/-- `N_PULSES` for a stored `gain` field: 24 + `gain` (R6, R59). -/
def pulses (gain : BitVec 2) : Nat :=
  nData + gain.toNat

/-- Sample assembly at a data pulse: `sh <- sh[22:0] ++ b` (R60). -/
def shiftIn (sh : Raw) (b : Bit) : Raw :=
  sh.extractLsb' 0 23 ++ b

/-- Sign extension as R61 defines it: test bit 23 and, if set, subtract 2^24. -/
def sext24 (sh : Raw) : Word :=
  if sh.getLsbD 23 then sh.setWidth 32 - 0x1000000#32 else sh.setWidth 32

/-- The value a READ stores and answers: `raw - offset`, 32-bit, wrapping for totality (R78; the spec's decision D14). -/
def corrected (sh : Raw) (offset : Word) : Word :=
  sext24 sh - offset

/-- `bool` on the response port: 1 for true, 0 for false (R7, R57). -/
def boolWord (b : Bool) : Word :=
  if b then 1#32 else 0#32

/-- The error names of R94. -/
inductive ErrName where
  /-- `ERR_GAIN` (R95). -/
  | gain
  /-- `ERR_STATE` (R96). -/
  | state
  /-- `ERR_OP` (R97). -/
  | op
deriving DecidableEq, Repr

/-- The `err` numbers of R94. -/
def errCode : ErrName → BitVec 2
  | .gain => 1#2
  | .state => 2#2
  | .op => 3#2

/-- An OK response: `err` = 0 and the returned value (R57). -/
def okResponse (data : Word) : Response :=
  0#2 ++ data

/-- An error response: its `err` number and `data` = 0 (R57). -/
def errResponse (e : ErrName) : Response :=
  errCode e ++ 0#32

end Sys2Proof.Machine
end

