-- ==== Sys2Proof/Syntax.lean ====
section
/-!
DEFINITION. The six operations of the engine (`00_scope.md` R10), one constructor per row of the opcode table (R55, R70).
-/

namespace Sys2Proof

/-- An operation as written (R67). Only NEW has an operand. -/
inductive Instr where
  /-- `NEW g`: `arg` is the gain setting as the plain number (R56). Any `arg` is a NEW; a wrong one is rejected when it runs (R65). -/
  | new (arg : BitVec 8)
  /-- `IS_READY` (R72). -/
  | isReady
  /-- `READ` (R73). -/
  | read
  /-- `TARE` (R81). -/
  | tare
  /-- `GET_OFFSET` (R84). -/
  | getOffset
  /-- `GET_LAST` (R85). -/
  | getLast
deriving DecidableEq, Repr

end Sys2Proof
end

