-- ==== Sys2Proof/WellFormed.lean ====
section
/-!
DEFINITION. Which operations are legal in the sense of `30_encoding.md` R66: a NEW names one of the three gains; the other five
have nothing that could be wrong. A NEW with another `arg` is still a NEW: it is decoded and it runs, and it answers `ERR_GAIN`
(R65, R90), so no theorem about running needs this check.
-/

namespace Sys2Proof

/-- The operation is one of the eight legal ones of R66. -/
def Instr.WellFormed : Instr → Bool
  | .new arg => (Machine.gainPulses arg).isSome
  | .isReady => true
  | .read => true
  | .tare => true
  | .getOffset => true
  | .getLast => true

end Sys2Proof
end

