-- ==== Sys2Proof/Decode.lean ====
section
/-!
DEFINITION. The command word: decoder and encoder (`30_encoding.md` R54, R55, R63, R64, R69).
-/

namespace Sys2Proof

/-- What a command word is: an operation, or one of the two illegal encodings, by name. -/
inductive Decoded where
  | instr (i : Instr)
  /-- `op` is 0b110 or 0b111 (R63). -/
  | reservedOp
  /-- `op` is 0b001 to 0b101 and `arg` is not 0 (R64). -/
  | reservedArg
deriving DecidableEq, Repr

/-- The `op` field, bits 10:8 (R54). -/
def opField (cmd : Command) : BitVec 3 :=
  cmd.extractLsb' 8 3

/-- The `arg` field, bits 7:0 (R54). -/
def argField (cmd : Command) : BitVec 8 :=
  cmd.extractLsb' 0 8

/-- An operation without an operand, whose `arg` must be 0 (R64). -/
def plain (cmd : Command) (i : Instr) : Decoded :=
  if argField cmd = 0#8 then .instr i else .reservedArg

/-- The decoder of R55, with the checks (1) and (2) of R69. Total on all 2048 words. -/
def decode (cmd : Command) : Decoded :=
  if opField cmd = 0b000#3 then .instr (.new (argField cmd))
  else if opField cmd = 0b001#3 then plain cmd .isReady
  else if opField cmd = 0b010#3 then plain cmd .read
  else if opField cmd = 0b011#3 then plain cmd .tare
  else if opField cmd = 0b100#3 then plain cmd .getOffset
  else if opField cmd = 0b101#3 then plain cmd .getLast
  else .reservedOp

/-- The `op` value of R55's table. -/
def opOf : Instr → BitVec 3
  | .new _ => 0b000#3
  | .isReady => 0b001#3
  | .read => 0b010#3
  | .tare => 0b011#3
  | .getOffset => 0b100#3
  | .getLast => 0b101#3

/-- The `arg` value of R54: the gain setting of a NEW, else 0. -/
def argOf : Instr → BitVec 8
  | .new arg => arg
  | .isReady => 0#8
  | .read => 0#8
  | .tare => 0#8
  | .getOffset => 0#8
  | .getLast => 0#8

/-- The command word of an operation (R54, R55). -/
def encode (i : Instr) : Command :=
  opOf i ++ argOf i

/-- The operation a decoded word stands for, if it stands for one. -/
def instrOf : Decoded → Option Instr
  | .instr i => some i
  | .reservedOp => none
  | .reservedArg => none

/-- What the decoder reads from `nbits` bits numbered as the opcode table numbers them. A command word has 11 bits (R54): a word
with a bit above bit 10 is no command word. -/
def decodeTableWord (nbits w : Nat) : Option Instr :=
  if w % 2 ^ nbits < 2048 then instrOf (decode (BitVec.ofNat 11 (w % 2 ^ nbits))) else none

end Sys2Proof
end

