-- ==== Sys2Proof/Machine/State.lean ====
section
/-!
DEFINITION. The machine's state as plain data (`10_state.md` R13 and the ports), the reasons a step can stop, and the state after reset.
-/

namespace Sys2Proof.Machine

/-- The sequencer's position `seq` (R20). `k` is the pulse index, 1 to 27. -/
inductive Seq where
  /-- No exchange or wait in progress. -/
  | idle
  /-- A TARE waits for the data line to go low. -/
  | poll
  /-- About to drive the clock high for pulse `k`. -/
  | hi (k : Nat)
  /-- Has driven high and held, about to sample. -/
  | smp (k : Nat)
  /-- About to drive the clock low. -/
  | lo (k : Nat)
  /-- All pulses are done and the result is about to be written. -/
  | commit
deriving DecidableEq, Repr

/-- `cur`: which operation owns the sequence (R21). -/
inductive Cur where
  | none
  | read
  | tare
deriving DecidableEq, Repr

/-- The two execution contexts of the host (R111). The engine does not distinguish them. -/
inductive Context where
  | main
  | irq
deriving DecidableEq, Repr

/-- The engine's own elements (R13). -/
structure Engine where
  /-- `offset` = `x[0]`, signed (R14). -/
  offset : Word
  /-- `last_value` = `x[1]`, signed (R15). -/
  lastValue : Word
  /-- `gain`, field `GP`: the number of gain pulses (R18). -/
  gain : BitVec 2
  /-- `sh`, the receive shift register (R19). -/
  sh : Raw
  /-- `seq` (R20). -/
  seq : Seq
  /-- `cur` (R21). -/
  cur : Cur
  /-- `sck`: the level the engine last drove on the clock line (R25). -/
  sck : Bit
  /-- `constructed` (R23). -/
  constructed : Bool
deriving DecidableEq, Repr

/-- The host's side of the command port: the response it sees, the context that issues, and the marks of a broken contract. -/
structure Port where
  /-- The response of the operation that ended last; none before the first and while an exchange or wait is in progress (R57,
  R98; DESIGN CHOICE, log 13, safe). -/
  resp : Option Response
  /-- The issuing context (R106, R109, R111). -/
  ctx : Context
  /-- What the running handler has still to do; empty when it is about to return (R107). -/
  todo : List HandlerStep
  /-- The mark of R74: a READ was issued while not ready. Never cleared. -/
  notReadyRead : Bool
  /-- The mark of R112 and U11: the handler issued a TARE or a NEW. Never cleared. -/
  irqBreach : Bool
deriving DecidableEq, Repr

/-- The lines, the interrupt latch and the outside. -/
structure Env where
  /-- The launch premise `LinesConfigured` (R127): bring-up has connected `Drive` and `Sample` to the wires. No step changes it (log 26). -/
  configured : Bool
  /-- The level of `DOUT`, driven by the converter alone (R26 (a), R33, R40). -/
  dout : Bit
  /-- `irq_pend` (R24; the spec lets a model place it with the event dispatch). -/
  irqPend : Bool
  /-- Has the host enabled the ready interrupt (R105)? -/
  irqEnabled : Bool
  /-- The model's own: who goes first at the next boundary (R101; log 9). -/
  handlerFirst : Bool
  /-- What the host's interrupt context issues at its next entry: an input (R9), SERVICE by its contract (R107; DESIGN CHOICE, log 8,
  safe). -/
  handler : List HandlerStep
  /-- The main context's commands that the engine has not accepted yet, the first at the port (R48). -/
  cmds : List Command
  /-- The model's own: what happens in the coming gaps; when it is exhausted, `Config.gap` says (log 2, safe). -/
  gaps : List Gap
  /-- The model's own: the steps taken; the argument of every free value (log 19). No statement rests on its value. -/
  tick : Nat
deriving DecidableEq, Repr

/-- The machine. There is no memory (R34, R36): the line space is `eng.sck` and `env.dout` (R31). -/
structure State where
  eng : Engine
  port : Port
  env : Env
deriving DecidableEq, Repr

/-- Why the machine stops. -/
inductive Fault where
  /-- `seq` and `cur` stand in a combination that R21 gives no place. Raised by the meanings of all six operations, and by a command
  that decodes to none, in such a state only. Safe: no run reaches one (the invariant of `Sys2Proof/Safety.lean` excludes them). Log 16. -/
  | sequencer
deriving DecidableEq, Repr

/-- Why an instruction has no meaning. -/
inductive Refusal where
  /-- An instruction that the model does not model yet. Raised by no arm of `exec`: all six operations have their meaning. Safe. -/
  | notModelled (mnemonic : String)
deriving DecidableEq, Repr

/-- What a step or a meaning answers. -/
abbrev Answer := Host.Outcome State Fault Refusal

/-- The machine right after hardware reset (R28 first column, R117 to R120): `constructed` = 0, `seq` = `IDLE`, `cur` = `NONE`,
`irq_pend` = 0, interrupt disabled. DESIGN CHOICE (log 1, log 2, log 21; unsafe): `offset`, `last_value`, `gain`, `sh` and `sck`
are unspecified in the spec and 0 here, `DOUT` is 1 here. The pins are configured when the engine starts (R4, R127). -/
def State.reset : State where
  eng :=
    { offset := 0#32, lastValue := 0#32, gain := 0#2, sh := 0#24, seq := .idle, cur := .none, sck := 0#1, constructed := false }
  port :=
    { resp := none, ctx := .main, todo := [], notReadyRead := false, irqBreach := false }
  env :=
    { configured := true, dout := 1#1, irqPend := false, irqEnabled := false, handlerFirst := false,
      handler := [.isReady, .readIfReady], cmds := [], gaps := [], tick := 0 }

end Sys2Proof.Machine
end

