-- ==== Sys2Proof/Machine/Ops.lean ====
section
/-!
DEFINITION. The named operations: the line primitives of `00_scope.md` R8, responses and error responses (`60_exceptions.md`
R94, R98), the checks every operation begins with (`30_encoding.md` R69, `40_protocol_engine.md` R71), taking the ready interrupt
and returning from it (`60_exceptions.md` R106, R109), hardware reset (R117), and the gap between two steps.
-/

namespace Sys2Proof.Machine

/-- `Sample()`: one sample of the data line, with no side effect (R8, R33). Where the lines are not configured nothing says what it returns
(R127): a free value. -/
def sample (s : State) : Bit :=
  if s.env.configured then s.env.dout else Config.strayLevel s.env.tick

/-- `Drive(v)`: drive the clock line to `v` and keep it there (R8, R25, R32). -/
def drive (v : Bit) (e : Engine) : Engine :=
  { e with sck := v }

/-- `Delay()`: a hold that changes no state (R8, R12, R113). -/
def delay (e : Engine) : Engine :=
  e

/-- The level the engine puts on the wire the converter sees: none before NEW, when it does not drive it (R28, D9), and none that the spec
gives where the lines are not configured (R127). -/
def clockLine (s : State) : Option Bit :=
  if s.eng.constructed && s.env.configured then some s.eng.sck else none

/-- `s` with the response `r` on the port. -/
def withResp (r : Option Response) (s : State) : State :=
  { s with port := { s.port with resp := r } }

/-- `return v`: end the operation with an OK response (R8, R57). -/
def respond (data : Word) (s : State) : Answer :=
  .next (withResp (some (okResponse data)) s)

/-- `raise`: end the operation with an error response. Errors are precise and leave no other trace (R94, R98). -/
def reject (e : ErrName) (s : State) : Answer :=
  .next (withResp (some (errResponse e)) s)

/-- A command at the port of an engine that may be busy: one operation runs at a time, and a command issued while another is in
progress waits (R48); its body runs when the engine is idle. -/
def accept (s : State) (body : Answer) : Answer :=
  match s.eng.cur with
  | .none => if s.eng.seq = .idle then body else .fault .sequencer
  | .read => .next s
  | .tare => .next s

/-- The prologue of every operation but NEW: `ERR_STATE` while not constructed (R23, R69 (3), R71). -/
def whenBuilt (s : State) (body : Answer) : Answer :=
  accept s (if s.eng.constructed then body else reject .state s)

/-- The end of an operation that leaves the engine's registers as `e`: `cur <- NONE ; seq <- IDLE`, and an OK response (R73, R81, R89). -/
def finish (e : Engine) (data : Word) (s : State) : Answer :=
  respond data { s with eng := { e with cur := .none, seq := .idle } }

/-- TAKING THE READY INTERRUPT (R106): `irq_pend <- 0`; the interrupt context issues; the handler begins with what the host has chosen for this entry.
Nothing of the engine is saved or changed. -/
def enterHandler (s : State) : State :=
  { s with
    port := { s.port with ctx := .irq, todo := s.env.handler }
    env := { s.env with irqPend := false } }

/-- RETURN FROM THE HANDLER (R109): the thread goes back to the main context; nothing of the engine is restored. -/
def leaveHandler (s : State) : State :=
  { s with port := { s.port with ctx := .main } }

/-- Is the handler entered at this boundary (R106)? It needs a pending edge and an enabled interrupt; if a command of the main
context falls together with it, either may go first (R101, R108): `handlerFirst` says which. DESIGN CHOICE (log 9, safe):
R108 names only the next operation, and how many may go before a handler that stays pending is open; every gap draws `handlerFirst` anew, so
any number of waiting commands may. -/
def entersHandler (s : State) : Bool :=
  s.env.irqPend && s.env.irqEnabled && (s.env.handlerFirst || s.env.cmds.isEmpty)

/-- Is this an operation the handler must not issue (R112)? R112 bars TARE and NEW by name and lists SERVICE, IS_READY, GET_OFFSET and GET_LAST
as what it may issue; of a READ outside SERVICE it says neither. DESIGN CHOICE (log 18; safe): that READ is no breach by itself (one that sees the
line high is marked by R74 all the same). -/
def barredInHandler : Instr → Bool
  | .new _ => true
  | .tare => true
  | .isReady => false
  | .read => false
  | .getOffset => false
  | .getLast => false

/-- The mark of R112: a TARE or NEW from the interrupt context breaks the host's contract; the engine runs it all the same (U11). -/
def noteBreach (i : Instr) (s : State) : State :=
  { s with port := { s.port with irqBreach := s.port.irqBreach || (s.port.ctx == .irq && barredInHandler i) } }

/-- What the outside does in the coming gap: the script's next entry, or a free one (log 2). -/
def nextGap (env : Env) : Gap :=
  match env.gaps with
  | [] => Config.gap env.tick
  | g :: _ => g

/-- The outside after one gap: the line settles at its last level; the interrupt's edge sets `irq_pend`, whether or not an operation
is in progress and whether or not the interrupt is enabled, and a latch that is set stays set (R104, R108); the host's commands
queue up behind those that wait (R48); the host sets the enable as it likes (R105), and what its interrupt context will issue (R9). -/
def advance (env : Env) : Env :=
  { configured := env.configured
    dout := settle env.dout (nextGap env).levels
    irqPend := env.irqPend || edgeSeen env.dout (nextGap env).levels
    irqEnabled := (nextGap env).irqSet.getD env.irqEnabled
    handlerFirst := (nextGap env).handlerFirst
    handler := (nextGap env).handler.getD env.handler
    cmds := env.cmds ++ (nextGap env).cmds
    gaps := env.gaps.tail
    tick := env.tick + 1 }

/-- The gap after an engine step: the converter may act between any two lines (R75, D27), the host too. Nothing of the engine changes. -/
def passGap (s : State) : State :=
  { s with env := advance s.env }

/-- An answer followed by the gap. A stop stays a stop. -/
def thenGap : Answer → Answer
  | .next s => .next (passGap s)
  | .fault r => .fault r
  | .refused r => .refused r

/-- Hardware reset from outside (R117, R118, R120): the four defined elements and the interrupt enable as R28 says, the other engine
elements unspecified (free values, U10; log 11). No operation does this (R118); the outside may, between any two steps. The host is
back in its main context with no response; marks are never cleared. -/
def hardwareReset (s : State) : State where
  eng :=
    { offset := (Config.afterReset s.env.tick).offset
      lastValue := (Config.afterReset s.env.tick).lastValue
      gain := (Config.afterReset s.env.tick).gain
      sh := (Config.afterReset s.env.tick).sh
      seq := .idle
      cur := .none
      sck := (Config.afterReset s.env.tick).sck
      constructed := false }
  port := { s.port with resp := none, ctx := .main, todo := [] }
  env := { s.env with irqPend := false, irqEnabled := false }

end Sys2Proof.Machine
end

