-- ==== Sys2Proof/Machine/Sequencer.lean ====
section
/-!
DEFINITION. The exchange (`40_protocol_engine.md` R75, `10_state.md` R20, R21): the fixed pulse train that READ and TARE run, one line of its
pseudocode per step (D27).
-/

namespace Sys2Proof.Machine

/-- The start of an exchange for the operation `op`: `sh <- 0`, and the sequencer at `HI(1)` (R19, R21, R75). The response port holds
nothing until the operation ends. -/
def beginExchange (op : Cur) (s : State) : State :=
  withResp none { s with eng := { s.eng with cur := op, sh := 0#24, seq := .hi 1 } }

/-- The successor of `LO(k)` (R21). -/
def afterLow (gain : BitVec 2) (k : Nat) : Seq :=
  if k < pulses gain then .hi (k + 1) else .commit

/-- One line of `Exchange()` with the data line at level `b` (R75): drive high and hold; at a data pulse sample and shift, at a gain
pulse take no sample (D13); drive low and hold. The other positions are no lines of the exchange. -/
def exchangeLine (b : Bit) (e : Engine) : Option Engine :=
  match e.seq with
  | .hi k => some { delay (drive 1#1 e) with seq := .smp k }
  | .smp k => some { e with sh := if k ≤ nData then shiftIn e.sh b else e.sh, seq := .lo k }
  | .lo k => some { delay (drive 0#1 e) with seq := afterLow e.gain k }
  | .idle => none
  | .poll => none
  | .commit => none

/-- The exchange in progress goes on by one line. -/
def exchangeOn (s : State) : Answer :=
  match exchangeLine (sample s) s.eng with
  | some e => .next { s with eng := e }
  | none => .fault .sequencer

end Sys2Proof.Machine
end

