-- ==== Sys2Proof/Machine/Calibration.lean ====
section
/-!
DEFINITION. The reading cache and calibration: TARE, GET_OFFSET, GET_LAST (`41_cache_calibration.md`).
-/

namespace Sys2Proof.Machine

/-- TARE's start (R81): `cur <- TARE ; seq <- POLL`. -/
def beginTare (s : State) : State :=
  withResp none { s with eng := { s.eng with cur := .tare, seq := .poll } }

/-- One iteration of TARE's busy-wait (R82): a sample of 1 stays at `POLL`, a sample of 0 starts the exchange with no second gate
sample (D24). There is no bound and no timeout. -/
def pollOnce (s : State) : Answer :=
  if isLow (sample s) then .next (beginExchange .tare s) else .next s

/-- TARE's commit step (R81, R83): `last_value` and `offset` both take the raw sample. -/
def commitTare (s : State) : Answer :=
  finish { s.eng with lastValue := sext24 s.eng.sh, offset := sext24 s.eng.sh } 0#32 s

/-- TARE (R81), one line a step: issued on an idle engine it goes to `POLL`; a TARE in progress polls, then runs its exchange and at
`COMMIT` its commit step. -/
def execTare (s : State) : Answer :=
  match s.eng.cur with
  | .tare =>
    if s.eng.seq = .poll then pollOnce s
    else if s.eng.seq = .commit then commitTare s
    else exchangeOn s
  | .none => whenBuilt s (.next (beginTare s))
  | .read => whenBuilt s (.next s)

/-- GET_OFFSET (R84): a pure accessor. -/
def execGetOffset (s : State) : Answer :=
  whenBuilt s (respond s.eng.offset s)

/-- GET_LAST (R85): a pure accessor. -/
def execGetLast (s : State) : Answer :=
  whenBuilt s (respond s.eng.lastValue s)

end Sys2Proof.Machine
end

