-- ==== Sys2Proof/Machine/Construction.lean ====
section
/-!
DEFINITION. Construction: NEW (`42_construction.md`).
-/

namespace Sys2Proof.Machine

/-- NEW (R89): `ERR_STATE` when already constructed (R91), then `ERR_GAIN` when `arg` is no gain (R90), each with no effect; else the
registers of R89, with `last_value` a free value (R28, D8) and the clock line driven low (D9). `sh` is not written (R30). -/
def execNew (arg : BitVec 8) (s : State) : Answer :=
  accept s <|
    if s.eng.constructed then reject .state s
    else
      match gainPulses arg with
      | none => reject .gain s
      | some g =>
        finish
          (drive 0#1 { s.eng with
            gain := g, offset := offsetInit, lastValue := Config.lastInit s.env.tick, constructed := true })
          0#32 s

end Sys2Proof.Machine
end

