-- ==== Sys2Proof/Machine/Protocol.lean ====
section
/-!
DEFINITION. The protocol engine's operations: IS_READY and READ (`40_protocol_engine.md`).
-/

namespace Sys2Proof.Machine

/-- IS_READY (R72): one sample; true when the line is low. -/
def execIsReady (s : State) : Answer :=
  whenBuilt s (respond (boolWord (isLow (sample s))) s)

/-- READ with the gate sample high (R74): the run is marked, for ever, and one of the two outcomes follows: the ungated exchange
(b), or the no-op (a) with any data. No value is picked (U1). -/
def readNotReady (s : State) : Answer :=
  let marked : State := { s with port := { s.port with notReadyRead := true } }
  if Config.ungatedRead s.env.tick then .next (beginExchange .read marked)
  else respond (Config.anyI32 s.env.tick) marked

/-- READ's commit step (R73, R76): `x[LAST] <- raw - x[OFFSET]`, which is also the value returned (D10). -/
def commitRead (s : State) : Answer :=
  finish { s.eng with lastValue := corrected s.eng.sh s.eng.offset } (corrected s.eng.sh s.eng.offset) s

/-- READ (R73), one line a step: issued on an idle engine it samples the outer gate; a READ in progress runs the next line of its
exchange and at `COMMIT` its commit step. -/
def execRead (s : State) : Answer :=
  match s.eng.cur with
  | .read => if s.eng.seq = .commit then commitRead s else exchangeOn s
  | .none => whenBuilt s (if isLow (sample s) then .next (beginExchange .read s) else readNotReady s)
  | .tare => whenBuilt s (.next s)

end Sys2Proof.Machine
end

