-- ==== Sys2Proof/Machine/Dispatch.lean ====
section
/-!
DEFINITION. One arm per operation, each one call of its meaning.
-/

namespace Sys2Proof.Machine

def exec (i : Instr) (s : State) : Host.Outcome State Fault Refusal :=
  match i with
  | .new arg => Sys2Proof.Machine.execNew arg s
  | .isReady => Sys2Proof.Machine.execIsReady s
  | .read => Sys2Proof.Machine.execRead s
  | .tare => Sys2Proof.Machine.execTare s
  | .getOffset => Sys2Proof.Machine.execGetOffset s
  | .getLast => Sys2Proof.Machine.execGetLast s

end Sys2Proof.Machine
end

