-- ==== Sys2Proof/Machine/Issue.lean ====
section
/-!
DEFINITION. What the machine does at a step: which operation runs, and for whom (`20_memory.md` R48, `60_exceptions.md` R101 to R112).
-/

namespace Sys2Proof.Machine

/-- What a step does before the gap. -/
inductive Selected where
  /-- The operation `i` runs on `t`: it is accepted, or it is the one in progress and goes on. -/
  | run (i : Instr) (t : State)
  /-- The command at the port is no operation. -/
  | badCommand (t : State)
  /-- No operation runs: the host enters its handler, returns from it, decides, or issues nothing. -/
  | host (t : State)
deriving DecidableEq, Repr

/-- The command `c`, taken from its issuer, leaving `s` (R55, R69). DESIGN CHOICE (log 18; safe): a reserved word of the handler's, TARE's code with
a non-zero `arg` among them, sets no mark, because it is no operation and R112 neither lists nor bars it; a NEW that is then rejected is a NEW
and does. -/
def takeCommand (c : Command) (s : State) : Selected :=
  match decode c with
  | .instr i => .run i (noteBreach i s)
  | .reservedOp => .badCommand s
  | .reservedArg => .badCommand s

/-- `s` with the handler's remaining acts `r`. -/
def withTodo (r : List HandlerStep) (s : State) : State :=
  { s with port := { s.port with todo := r } }

/-- `s` with the main context's waiting commands `r`. -/
def withCmds (r : List Command) (s : State) : State :=
  { s with env := { s.env with cmds := r } }

/-- The handler's next act (R107, R109, R112). READ follows only an answer of true: the decision is over the last response, `0:00000001`. -/
def handlerTurn (s : State) : Selected :=
  match s.port.todo with
  | [] => .host (leaveHandler s)
  | .isReady :: r => .run .isReady (withTodo r s)
  | .readIfReady :: r =>
    if s.port.resp = some (okResponse (boolWord true)) then .run .read (withTodo r s) else .host (withTodo r s)
  | .issue c :: r => takeCommand c (withTodo r s)

/-- The main context's turn: the handler is entered (R106), or the command at the port is accepted, or nothing is issued. -/
def mainTurn (s : State) : Selected :=
  if entersHandler s then .host (enterHandler s)
  else
    match s.env.cmds with
    | [] => .host s
    | c :: r => takeCommand c (withCmds r s)

/-- Which operation runs at this step. An operation in progress always goes on: nothing else is accepted and the handler is not entered
until its response (R48, R101). -/
def select (s : State) : Selected :=
  match s.eng.cur with
  | .read => .run .read s
  | .tare => .run .tare s
  | .none =>
    match s.port.ctx with
    | .irq => handlerTurn s
    | .main => mainTurn s

/-- The step without its gap. A command that is no operation answers `ERR_OP` and changes nothing (R63, R64, R97, R98). -/
def turn (s : State) : Answer :=
  match select s with
  | .run i t => exec i t
  | .badCommand t => accept t (reject .op t)
  | .host t => .next t

/-- `s` made ready to accept the command `c` at its next step: the engine idle, the main context issuing, `c` at the port ahead of the
commands that wait there, and no handler going first. -/
def atPort (c : Command) (s : State) : State :=
  { eng := { s.eng with seq := .idle, cur := .none }
    port := { s.port with ctx := .main, todo := [] }
    env := { s.env with handlerFirst := false, cmds := c :: s.env.cmds } }

end Sys2Proof.Machine
end

