-- ==== Sys2Proof/Machine/Step.lean ====
section
/-!
DEFINITION. The step: one line of the engine, or one act of the host, and then the gap in which the outside acts.
-/

namespace Sys2Proof.Machine

/-- One step of the machine (R75, D27). -/
def step (s : State) : Host.Outcome State Fault Refusal :=
  thenGap (turn s)

/-- `s` with a command word at the command port (R54), where `step` takes its next operation. The bits are those of the opcode
table; a command word has 11 of them. How a program comes to run from reset: log 12. -/
def State.withFetchWord (s : State) (nbits w : Nat) : State :=
  atPort (BitVec.ofNat 11 (w % 2 ^ nbits)) s

end Sys2Proof.Machine
end

