-- ==== Sys2Proof/Machine/Lines.lean ====
section
/-!
DEFINITION. What the engine does on its two lines, action by action: the trace of `40_protocol_engine.md` R75 and the accesses and holds of
`20_memory.md` R38, `60_exceptions.md` R113 and `70_reset_and_hazards.md` R137. It is read off the state and is no state of the
machine (R13). Hand-written beside the meanings: that it agrees with them is stated, not built in.
-/

namespace Sys2Proof.Machine

/-- One action on the lines, or a hold (R8, R9). -/
inductive LineAction where
  | drive (v : Bit)
  | delay
  | sample
deriving DecidableEq, Repr

/-- The actions of one line of `Exchange()` (R75): no sample in a gain pulse (R58, D13). -/
def exchangeActions : Seq → List LineAction
  | .hi _ => [.drive 1#1, .delay]
  | .smp k => if k ≤ nData then [.sample] else []
  | .lo _ => [.drive 0#1, .delay]
  | .idle => []
  | .poll => []
  | .commit => []

/-- The actions of an operation that the engine accepts only when it is idle and, for all but NEW, constructed (R48, R71). -/
def whenAccepted (built : Bool) (s : State) (acts : List LineAction) : List LineAction :=
  if s.eng.cur = .none ∧ s.eng.seq = .idle ∧ s.eng.constructed = built then acts else []

/-- What `exec i s` does on the lines (R38): NEW writes SCK once, IS_READY samples once, READ samples its gate and TARE each poll, both
run the exchange; a rejected operation does nothing (R98). DESIGN CHOICE (log 24): a READ issued while not ready lists its gate sample
whichever outcome of R74 follows, as R73 and R38 list it for every READ; R74 says that an implementation of outcome (b) takes none. -/
def actionsOf (i : Instr) (s : State) : List LineAction :=
  match i with
  | .new arg => if (gainPulses arg).isSome then whenAccepted false s [.drive 0#1] else []
  | .isReady => whenAccepted true s [.sample]
  | .read =>
    match s.eng.cur with
    | .read => exchangeActions s.eng.seq
    | .none => whenAccepted true s [.sample]
    | .tare => []
  | .tare =>
    match s.eng.cur with
    | .tare => if s.eng.seq = .poll then [.sample] else exchangeActions s.eng.seq
    | .none => []
    | .read => []
  | .getOffset => []
  | .getLast => []

/-- What the step at `s` does on the lines. -/
def stepActions (s : State) : List LineAction :=
  match select s with
  | .run i t => actionsOf i t
  | .badCommand _ => []
  | .host _ => []

/-- What `n` steps from `s` do on the lines, in order. -/
def lineTrace : Nat → State → List LineAction
  | 0, _ => []
  | n + 1, s =>
    stepActions s ++
      match step s with
      | .next t => lineTrace n t
      | .fault _ => []
      | .refused _ => []

/-- The level of the clock line after these actions, if it was `v` before. -/
def lastDriven (v : Bit) : List LineAction → Bit
  | [] => v
  | .drive w :: r => lastDriven w r
  | .delay :: r => lastDriven v r
  | .sample :: r => lastDriven v r

/-- A data pulse on the lines: `H d s L d` (R75). -/
def dataPulse : List LineAction :=
  [.drive 1#1, .delay, .sample, .drive 0#1, .delay]

/-- A gain pulse on the lines: `H d L d` (R75, D13). -/
def gainPulse : List LineAction :=
  [.drive 1#1, .delay, .drive 0#1, .delay]

/-- `n` copies of `p`. -/
def copies (n : Nat) (p : List LineAction) : List LineAction :=
  (List.replicate n p).flatten

end Sys2Proof.Machine
end

