-- ==== Sys2Proof/Safety.lean ====
section
/-!
DEFINITION. The terms in which statements speak: the invariant, the premises on the converter and the platform that the spec names
(`20_memory.md` R47, `70_reset_and_hazards.md` R127 to R131), and when a run is within the caller contract (R74, R112).
-/

namespace Sys2Proof.Machine

/-- The engine is idle: it accepts a command (R20, R48). -/
abbrev Idle (s : State) : Prop :=
  s.eng.cur = .none ∧ s.eng.seq = .idle

/-- The engine is idle and constructed: the state in which the pseudocode of the operation rules starts (R71). -/
abbrev Working (s : State) : Prop :=
  Idle s ∧ s.eng.constructed = true

/-- The launch premise of R127: `Drive` and `Sample` reach the wires. -/
abbrev LinesConfigured (s : State) : Prop :=
  s.env.configured = true

/-- `seq` and `cur` stand in one of the combinations of R20 and R21. -/
def seqOk (e : Engine) : Bool :=
  match e.seq with
  | .idle => e.cur == .none
  | .poll => e.cur == .tare
  | .hi k => e.cur != .none && 1 ≤ k && k ≤ pulses e.gain
  | .smp k => e.cur != .none && 1 ≤ k && k ≤ pulses e.gain
  | .lo k => e.cur != .none && 1 ≤ k && k ≤ pulses e.gain
  | .commit => e.cur != .none

/-- The level of the clock line at each position (R25): high from a pulse's rising edge to its falling edge, else low. -/
def sckAt : Seq → Bit
  | .idle => 0#1
  | .poll => 0#1
  | .hi _ => 0#1
  | .smp _ => 1#1
  | .lo _ => 1#1
  | .commit => 0#1

/-- `v` is a raw sample's value: -2^23 to 2^23-1 (R61, R78). -/
abbrev RawRange (v : Word) : Prop :=
  -8388608 ≤ v.toInt ∧ v.toInt ≤ 8388607

/-- The invariant: R20 and R21 for the sequencer, R23 for `constructed`, R18 for `gain`, R25 for `sck`, R78 for `offset`, R111 for
the contexts. -/
structure StateOk (s : State) : Prop where
  /-- The sequencer stands where R21 lets it. -/
  seq : seqOk s.eng = true
  /-- Nothing but an idle engine before construction. -/
  built : s.eng.constructed = false → s.eng.seq = .idle
  /-- The value 0 of `gain` is never stored (R18). -/
  gain : s.eng.constructed = true → s.eng.gain ≠ 0#2
  /-- The clock line's level belongs to the position. -/
  sck : s.eng.constructed = true → s.eng.sck = sckAt s.eng.seq
  /-- `offset` is `OFFSET_INIT` or a raw sample. -/
  offset : s.eng.constructed = true → RawRange s.eng.offset
  /-- Only a running handler has acts to do. -/
  ctx : s.port.ctx = .main → s.port.todo = []

/-- The run is within the caller contract so far: the premise every claim about a program takes (R74, R112). -/
abbrev WithinContract (s : State) : Prop :=
  s.port.notReadyRead = false ∧ s.port.irqBreach = false

/-- The outside after `n` gaps. -/
def after : Nat → Env → Env
  | 0, env => env
  | n + 1, env => after n (advance env)

/-- The level of the data line after `n` gaps. -/
def levelAfter (n : Nat) (env : Env) : Bit :=
  (after n env).dout

/-- Bit `i` of a raw sample, as a line level. -/
def bitOf (raw : Raw) (i : Nat) : Bit :=
  BitVec.ofBool (raw.getLsbD i)

/-- `Delivers(raw)` (R47), where the lines are configured, of the exchange whose outer gate, or whose last poll, is sampled in `env`: the 24 samples the engine takes are,
in order, `raw[23]` down to `raw[0]`. The first sample is taken 2 gaps later and each next one 3 gaps after the one before. -/
abbrev Delivers (raw : Raw) (env : Env) : Prop :=
  ∀ j, j < 24 → levelAfter (3 * j + 2) env = bitOf raw (23 - j)

/-- Sample assembly over a train (R60): `sh` after `k` data pulses, when the sample of pulse `i` is `f i`. -/
def assemble (f : Nat → Bit) : Nat → Raw
  | 0 => 0#24
  | k + 1 => shiftIn (assemble f k) (f (k + 1))

/-- How many steps an exchange takes after its gate or last poll: three lines a pulse, and the commit step. -/
def exchangeSteps (gain : BitVec 2) : Nat :=
  3 * pulses gain + 1

/-- `n` steps from `s`, stopping at the first stop: `Host.Core.run` of this machine (`runFor_eq_core`). -/
def runFor : Nat → State → Answer
  | 0, s => .next s
  | n + 1, s =>
    match step s with
    | .next t => runFor n t
    | .fault r => .fault r
    | .refused r => .refused r

/-- The samples that the engine takes in the exchange that begins its pulses in `s` spell `raw`, the first in bit 23 (R35, R60): the `j`th is
taken in the state reached after `3 * j + 1` steps. -/
def SamplesSpell (raw : Raw) (s : State) : Prop :=
  ∀ j, j < 24 → ∃ u, runFor (3 * j + 1) s = .next u ∧ u.eng.seq = .smp (j + 1) ∧ sample u = bitOf raw (23 - j)

/-- The operation `i` is issued in `s` and the machine then takes `k` more steps. -/
def issueAndRun (i : Instr) (k : Nat) (s : State) : Answer :=
  match thenGap (exec i s) with
  | .next t => runFor k t
  | .fault r => .fault r
  | .refused r => .refused r

/-- What the platform stalls in the next `n` gaps, together. -/
def stallOver : Nat → Env → Nat
  | 0, _ => 0
  | n + 1, env => (nextGap env).stall + stallOver n (advance env)

/-- R128: the hold meets both minimum pulse widths. -/
def PulseWidthMet : Prop :=
  Config.tHighMin ≤ Config.tPulse ∧ Config.tLowMin ≤ Config.tPulse

/-- All holds of the exchange whose outer gate, or whose last poll, is sampled in `env`, and every stall of the `n` gaps that begin at its first
rising edge, together fit the converter's window. -/
def FitsWindow (n : Nat) (gain : BitVec 2) (env : Env) : Prop :=
  2 * pulses gain * Config.tPulse + stallOver n (advance env) < Config.tTrainMax

/-- R129: the span from the first rising edge to the last falling edge, which is `LO(24 + gain)`, fits. -/
def WindowMet (gain : BitVec 2) (env : Env) : Prop :=
  FitsWindow (3 * pulses gain - 1) gain env

/-- R130: nothing stalls the engine longer than the window allows from the first rising edge to the commit step, so the gap after the last
falling edge counts too. Against the interrupt context `select` gives it; against anything else the platform must (log 14). -/
def NotPreempted (gain : BitVec 2) (env : Env) : Prop :=
  FitsWindow (3 * pulses gain) gain env

/-- The platform meets R128 to R130 in that exchange. The model has no time (R12, D15): the predicate names the obligations and nothing is
computed with it (log 14). -/
def TimingMet (gain : BitVec 2) (env : Env) : Prop :=
  PulseWidthMet ∧ WindowMet gain env ∧ NotPreempted gain env

/-- `s` issued by the context `c`. -/
def withCtx (c : Context) (s : State) : State :=
  { s with port := { s.port with ctx := c } }

/-- `s` with the data line at the level `b`. -/
def withDout (b : Bit) (s : State) : State :=
  { s with env := { s.env with dout := b } }

/-- The positions that may follow a position (R21), with `gain` as it stands. From `IDLE` the engine stays, a TARE goes to `POLL`, a READ
to `HI(1)`. -/
def mayFollow (gain : BitVec 2) : Seq → Seq → Bool
  | .idle, q => q == .idle || q == .poll || q == .hi 1
  | .poll, q => q == .poll || q == .hi 1
  | .hi k, q => q == .smp k
  | .smp k, q => q == .lo k
  | .lo k, q => if k < 24 + gain.toNat then q == .hi (k + 1) else q == .commit
  | .commit, q => q == .idle

end Sys2Proof.Machine
end

