-- ==== Sys2Proof/Certificates/Slice0/Obligations.lean ====
section
/-!
DEFINITION. The statements for the provers. Each cites the rules it formalises in OBLIGATIONS.json. A premise such as `Working s` or
`Idle s` is on the state alone; `Delivers raw env` is the premise on the converter that R47 names.
-/

open Sys2Proof Sys2Proof.Machine

/-! ## Encodings -/

/-- Decoder and encoder are inverse both ways: no bit of a command word is dropped, and an operation has one word (R54, R55). -/
def Obligations.DecodeInvertsEncode : Prop :=
  ∀ (c : Command) (i : Instr), decode c = .instr i ↔ c = encode i

/-- The words of R55's table and R56, written out, decode to their operations. -/
def Obligations.TableWordsDecode : Prop :=
  decode 0b00010000000#11 = .instr (.new 128#8) ∧ decode 0b00001000000#11 = .instr (.new 64#8) ∧
  decode 0b00000100000#11 = .instr (.new 32#8) ∧ decode 0b00100000000#11 = .instr .isReady ∧
  decode 0b01000000000#11 = .instr .read ∧ decode 0b01100000000#11 = .instr .tare ∧
  decode 0b10000000000#11 = .instr .getOffset ∧ decode 0b10100000000#11 = .instr .getLast

/-- Of the 2048 command words exactly these eight are legal: what R55, R56 and R63 to R65 come to (the spec's own inference, R66). -/
def Obligations.ExactlyEightLegalCommands : Prop :=
  ∀ c : Command, (∃ i, decode c = .instr i ∧ i.WellFormed = true) ↔
    c ∈ [0x020#11, 0x040#11, 0x080#11, 0x100#11, 0x200#11, 0x300#11, 0x400#11, 0x500#11]

/-- R63 and R64: a reserved `op`, or a non-zero `arg` with `op` 0b001 to 0b101, is answered with `ERR_OP` and changes no state, constructed
or not, from either context. `s` is any idle state with the command at the port; the rest of the step is the gap. -/
def Obligations.ReservedCommandsAnswerErrOp : Prop :=
  ∀ (c : Command) (s : State), Idle s →
    (opField c = 6#3 ∨ opField c = 7#3 ∨
      (opField c ≠ 0#3 ∧ opField c ≠ 6#3 ∧ opField c ≠ 7#3 ∧ argField c ≠ 0#8)) →
    (∀ r, s.port.ctx = .main → entersHandler s = false → s.env.cmds = c :: r →
      step s = .next { eng := s.eng, port := { s.port with resp := some 0x300000000#34 },
                       env := advance { s.env with cmds := r } }) ∧
    (∀ r, s.port.ctx = .irq → s.port.todo = .issue c :: r →
      step s = .next { eng := s.eng, port := { s.port with todo := r, resp := some 0x300000000#34 },
                       env := advance s.env })

/-- R69: the checks are made in the order `ERR_OP`, `ERR_STATE`, `ERR_GAIN` and the first that fails is reported; a command that passes
all four is executed. `atPort c s` is `s` with an idle engine and `c` at its port. -/
def Obligations.ChecksReportTheFirstFailure : Prop :=
  ∀ (c : Command) (s : State),
    let t := atPort c s
    let bare := withCmds s.env.cmds t
    (opField c = 6#3 ∨ opField c = 7#3 → turn t = reject .op bare) ∧
    (opField c ≠ 0#3 ∧ opField c ≠ 6#3 ∧ opField c ≠ 7#3 ∧ argField c ≠ 0#8 → turn t = reject .op bare) ∧
    (opField c = 0#3 ∧ s.eng.constructed = true → turn t = reject .state bare) ∧
    (opField c ≠ 0#3 ∧ opField c ≠ 6#3 ∧ opField c ≠ 7#3 ∧ argField c = 0#8 ∧ s.eng.constructed = false →
      turn t = reject .state bare) ∧
    (opField c = 0#3 ∧ s.eng.constructed = false ∧ argField c ≠ 128#8 ∧ argField c ≠ 64#8 ∧ argField c ≠ 32#8 →
      turn t = reject .gain bare) ∧
    (∀ i, decode c = .instr i →
      (s.eng.constructed = true ∧ opField c ≠ 0#3) ∨
      (s.eng.constructed = false ∧ opField c = 0#3 ∧ (argField c = 128#8 ∨ argField c = 64#8 ∨ argField c = 32#8)) →
      turn t = exec i bare ∧ ∀ e, exec i bare ≠ reject e bare)

/-- R35, R60: the sample of data pulse `k` becomes bit 24-k of the raw sample, whatever the samples are. -/
def Obligations.SampleOfPulseIsItsBit : Prop :=
  ∀ (f : Nat → Bit) (k : Nat), 1 ≤ k → k ≤ 24 → bitOf (assemble f 24) (24 - k) = f k

/-- R61: sign extension, as integers, with the source's three fixed points and the range. -/
def Obligations.SignExtensionSubtractsTwoTo24 : Prop :=
  (∀ sh : Raw, (sext24 sh).toInt = (if sh.toNat < 2 ^ 23 then (sh.toNat : Int) else (sh.toNat : Int) - 2 ^ 24) ∧
    RawRange (sext24 sh)) ∧
  (sext24 0x7FFFFF#24).toInt = 8388607 ∧ (sext24 0x800000#24).toInt = -8388608 ∧ (sext24 0xFFFFFF#24).toInt = -1

/-- R8 against R61: the bit-copy form of sign extension is the same function. -/
def Obligations.SignExtensionCopiesBit23 : Prop :=
  ∀ sh : Raw, sext24 sh = sh.signExtend 32

/-- With `offset` a raw sample's value the subtraction is exact, and lies in -16777215 to 16777215: the spec's own inference (R78) from R61
and R81. -/
def Obligations.SubtractionNeverWraps : Prop :=
  ∀ (sh : Raw) (offset : Word), RawRange offset →
    (corrected sh offset).toInt = (sext24 sh).toInt - offset.toInt ∧
    -16777215 ≤ (corrected sh offset).toInt ∧ (corrected sh offset).toInt ≤ 16777215

/-! ## Construction -/

/-- R89: NEW with a legal gain on an idle, unconstructed engine completes: `gain` by the table, `offset` 0, `last_value` some value
the spec does not fix, the clock line low, constructed, response OK with data 0. -/
def Obligations.NewConstructs : Prop :=
  ∀ (s : State) (arg : BitVec 8) (g : BitVec 2), Idle s → s.eng.constructed = false →
    (arg = 128#8 ∧ g = 1#2) ∨ (arg = 64#8 ∧ g = 2#2) ∨ (arg = 32#8 ∧ g = 3#2) →
    ∃ v : Word, exec (.new arg) s = .next { s with
      eng := { s.eng with gain := g, offset := 0#32, lastValue := v, sck := 0#1, seq := .idle, cur := .none, constructed := true }
      port := { s.port with resp := some 0#34 } }

/-- R90: a NEW with any other `arg` answers `ERR_GAIN`, changes nothing and drives no line; a later NEW with a legal gain succeeds and
stores that gain's pulse count. -/
def Obligations.BadGainRejected : Prop :=
  ∀ (s : State) (arg : BitVec 8), Idle s → s.eng.constructed = false → arg ≠ 128#8 → arg ≠ 64#8 → arg ≠ 32#8 →
    ∃ t, exec (.new arg) s = .next t ∧ t = { s with port := { s.port with resp := some 0x100000000#34 } } ∧
      actionsOf (.new arg) s = [] ∧
      ∀ (arg' : BitVec 8) (g : BitVec 2),
        (arg' = 128#8 ∧ g = 1#2) ∨ (arg' = 64#8 ∧ g = 2#2) ∨ (arg' = 32#8 ∧ g = 3#2) →
        ∃ u, exec (.new arg') t = .next u ∧ u.port.resp = some 0#34 ∧ u.eng.constructed = true ∧ u.eng.gain = g

/-- R91: a NEW on a constructed engine answers `ERR_STATE` and leaves all state as it was. -/
def Obligations.SecondNewRejected : Prop :=
  ∀ (s : State) (arg : BitVec 8), Idle s → s.eng.constructed = true →
    exec (.new arg) s = .next { s with port := { s.port with resp := some 0x200000000#34 } }

/-- R23, R71: before construction each of the other five operations answers `ERR_STATE` and changes nothing. -/
def Obligations.OthersRejectedBeforeConstruction : Prop :=
  ∀ (s : State) (i : Instr), Idle s → s.eng.constructed = false → (∀ arg, i ≠ .new arg) →
    exec i s = .next { s with port := { s.port with resp := some 0x200000000#34 } } ∧ actionsOf i s = []

/-- R98: an operation that answers an error (`ERR_GAIN`, `ERR_STATE`), and a word that is none (`ERR_OP`), from either context, changed nothing
but the response, drove no line and took no sample, and the next operation runs as if it had not been issued. `bare` is the state in which
the issuer has given the word up. -/
def Obligations.ErrorsLeaveNoTrace : Prop :=
  (∀ (s t : State) (i : Instr) (e : ErrName), Idle s → exec i s = .next t → t.port.resp = some (errResponse e) →
    t.eng = s.eng ∧ t.env = s.env ∧ t.port = { s.port with resp := t.port.resp } ∧ actionsOf i s = [] ∧
    ∀ j : Instr, exec j t = exec j s) ∧
  (∀ (s bare : State) (c : Command), Idle s → (∀ i, decode c ≠ .instr i) →
    (s.port.ctx = .main ∧ entersHandler s = false ∧ ∃ r, s.env.cmds = c :: r ∧ bare = withCmds r s) ∨
    (s.port.ctx = .irq ∧ ∃ r, s.port.todo = .issue c :: r ∧ bare = withTodo r s) →
    ∃ t, turn s = .next t ∧ t = { bare with port := { bare.port with resp := some 0x300000000#34 } } ∧ stepActions s = [] ∧
      ∀ j : Instr, exec j t = exec j bare)

/-! ## IS_READY and the accessors -/

/-- R72: IS_READY completes with 1 when its one sample is low and 0 when it is high; the response is all that changes; the sample is the line's
level under R127's premise. -/
def Obligations.IsReadyAnswersTheLevel : Prop :=
  ∀ s : State, Working s →
    (sample s = 0#1 → exec .isReady s = .next { s with port := { s.port with resp := some 1#34 } }) ∧
    (sample s = 1#1 → exec .isReady s = .next { s with port := { s.port with resp := some 0#34 } }) ∧
    (LinesConfigured s → sample s = s.env.dout) ∧ actionsOf .isReady s = [.sample]

/-- R84: GET_OFFSET completes with `offset`, touching no line and changing nothing but the response. -/
def Obligations.GetOffsetAnswersOffset : Prop :=
  ∀ s : State, Working s →
    exec .getOffset s = .next { s with port := { s.port with resp := some (0#2 ++ s.eng.offset) } } ∧
    actionsOf .getOffset s = []

/-- R85: GET_LAST completes with `last_value`, touching no line and changing nothing but the response. -/
def Obligations.GetLastAnswersLastValue : Prop :=
  ∀ s : State, Working s →
    exec .getLast s = .next { s with port := { s.port with resp := some (0#2 ++ s.eng.lastValue) } } ∧
    actionsOf .getLast s = []

/-! ## The exchange -/

/-- R75, line by line, for the operation in progress: the three lines of pulse `k` as the engine's next state, data pulse or gain pulse; the
sample is the line's level under R127's premise. One line a step is log 3's reading. -/
def Obligations.ExchangeLinesOfThePulse : Prop :=
  ∀ (s : State) (i : Instr) (k : Nat), (i = .read ∧ s.eng.cur = .read) ∨ (i = .tare ∧ s.eng.cur = .tare) →
    (s.eng.seq = .hi k → exec i s = .next { s with eng := { s.eng with sck := 1#1, seq := .smp k } }) ∧
    (s.eng.seq = .smp k → k ≤ 24 →
      exec i s = .next { s with eng := { s.eng with sh := s.eng.sh.extractLsb' 0 23 ++ sample s, seq := .lo k } }) ∧
    (LinesConfigured s → sample s = s.env.dout) ∧
    (s.eng.seq = .smp k → 24 < k → exec i s = .next { s with eng := { s.eng with seq := .lo k } }) ∧
    (s.eng.seq = .lo k → k < 24 + s.eng.gain.toNat →
      exec i s = .next { s with eng := { s.eng with sck := 0#1, seq := .hi (k + 1) } }) ∧
    (s.eng.seq = .lo k → 24 + s.eng.gain.toNat ≤ k →
      exec i s = .next { s with eng := { s.eng with sck := 0#1, seq := .commit } })

/-- R75, R113: the trace of an exchange on the lines: 24 pulses `H d s L d` and then `gain` pulses `H d L d`, with no other action. -/
def Obligations.ExchangeTraceOnTheLines : Prop :=
  ∀ s : State, s.eng.cur ≠ .none → s.eng.seq = .hi 1 →
    lineTrace (3 * (24 + s.eng.gain.toNat)) s = copies 24 dataPulse ++ copies s.eng.gain.toNat gainPulse ∧
    (lineTrace (3 * (24 + s.eng.gain.toNat)) s).count .delay = 2 * (24 + s.eng.gain.toNat) ∧
    (lineTrace (3 * (24 + s.eng.gain.toNat)) s).count .sample = 24

/-- R47, R60: from the start of its pulses an exchange takes 24 samples, at `SMP(1)` to `SMP(24)`, which spell exactly one raw sample, and the
24 data pulses leave that in `sh`, whatever the converter does: one that it answers with garbage commits too (R80 (5)). With the lines
configured that raw is the one of `Delivers`, so a claim with that premise leaves no exchange out. Three steps a pulse are log 3's. -/
def Obligations.EveryExchangeDeliversOneRaw : Prop :=
  ∀ s : State, s.eng.cur ≠ .none → s.eng.seq = .hi 1 → s.eng.sh = 0#24 →
    ∃ raw : Raw, SamplesSpell raw s ∧ (∀ raw', SamplesSpell raw' s → raw' = raw) ∧
      (∃ t, runFor (3 * 24) s = .next t ∧ t.eng.sh = raw) ∧
      (LinesConfigured s → ∀ env, s.env = advance env → Delivers raw env)

/-- R113, R32: a hold is made only in the two halves of a pulse, one in each, and the clock line is driven only there, high in the first
half and low in the second, and by a NEW that constructs the engine, low. -/
def Obligations.HoldsAndDrivesOnlyInPulses : Prop :=
  ∀ s : State,
    (LineAction.delay ∈ stepActions s →
      s.eng.cur ≠ .none ∧ (∃ k, s.eng.seq = .hi k ∨ s.eng.seq = .lo k) ∧ (stepActions s).count .delay = 1) ∧
    (∀ v, LineAction.drive v ∈ stepActions s →
      (s.eng.cur ≠ .none ∧ ∃ k, (v = 1#1 ∧ s.eng.seq = .hi k) ∨ (v = 0#1 ∧ s.eng.seq = .lo k)) ∨
      (v = 0#1 ∧ s.eng.constructed = false ∧ ∃ t, step s = .next t ∧ t.eng.constructed = true))

/-! ## READ -/

/-- R76: READ's commit step completes the operation: `last_value` takes the raw sample less `offset`, which is the value returned, and
the engine is idle. -/
def Obligations.ReadCommits : Prop :=
  ∀ s : State, s.eng.cur = .read → s.eng.seq = .commit →
    exec .read s = .next { s with
      eng := { s.eng with lastValue := sext24 s.eng.sh - s.eng.offset, cur := .none, seq := .idle }
      port := { s.port with resp := some (0#2 ++ (sext24 s.eng.sh - s.eng.offset)) } }

/-- R73, R75, R76: READ from its issue to its response. On a working engine with its lines configured (R127), whose line is low and whose exchange delivers `raw`, the
issue starts the exchange, and 3 lines a pulse and the commit step later `last_value` is `raw` less `offset` and so is the response;
nothing else has changed but `sh` (unspecified outside an exchange) and what the outside did. That the port holds no response meanwhile
is the model's choice (log 13), and so is the count of steps (log 3). -/
def Obligations.ReadRunsToItsResponse : Prop :=
  ∀ (s : State) (raw : Raw), Working s → LinesConfigured s → s.env.dout = 0#1 → Delivers raw s.env →
    exec .read s = .next { s with
      eng := { s.eng with cur := .read, sh := 0#24, seq := .hi 1 }, port := { s.port with resp := none } } ∧
    ∃ sh' : Raw, issueAndRun .read (exchangeSteps s.eng.gain) s = .next
      { eng := { s.eng with lastValue := sext24 raw - s.eng.offset, sh := sh', sck := 0#1 }
        port := { s.port with resp := some (0#2 ++ (sext24 raw - s.eng.offset)) }
        env := after (exchangeSteps s.eng.gain + 1) s.env }

/-- R74: READ with the line high answers no error: the run is marked, and either nothing happens and some data is answered, or the
exchange runs to its commit step exactly as in R73, with whatever the converter delivers. Which of the two is a free value (log 5);
that the port holds no response meanwhile (log 13) and the count of steps (log 3) are the model's choices. -/
def Obligations.NotReadyReadIsMarked : Prop :=
  ∀ s : State, Working s → LinesConfigured s → s.env.dout = 1#1 →
    (∃ d : Word, exec .read s = .next { s with port := { s.port with notReadyRead := true, resp := some (0#2 ++ d) } }) ∨
    (exec .read s = .next { s with
        eng := { s.eng with cur := .read, sh := 0#24, seq := .hi 1 }
        port := { s.port with notReadyRead := true, resp := none } } ∧
      ∀ raw, Delivers raw s.env → ∃ sh' : Raw, issueAndRun .read (exchangeSteps s.eng.gain) s = .next
        { eng := { s.eng with lastValue := sext24 raw - s.eng.offset, sh := sh', sck := 0#1 }
          port := { s.port with notReadyRead := true, resp := some (0#2 ++ (sext24 raw - s.eng.offset)) }
          env := after (exchangeSteps s.eng.gain + 1) s.env })

/-- READ's frame: `offset`, `gain`, `constructed` and everything outside the engine are unchanged, `last_value` too except at the commit
step; of the port only the response and the mark of R74 may change (R30, R73, R76). -/
def Obligations.ReadFrame : Prop :=
  ∀ s t : State, exec .read s = .next t →
    t.eng.offset = s.eng.offset ∧ t.eng.gain = s.eng.gain ∧ t.eng.constructed = s.eng.constructed ∧ t.env = s.env ∧
    (t.eng.lastValue = s.eng.lastValue ∨ (s.eng.cur = .read ∧ s.eng.seq = .commit)) ∧
    t.port = { s.port with resp := t.port.resp, notReadyRead := t.port.notReadyRead } ∧
    (t.port.notReadyRead = s.port.notReadyRead ∨ (Working s ∧ sample s = 1#1))

/-! ## TARE -/

/-- R81: TARE starts waiting on a working engine, whatever the line; it samples nothing at its issue. That the port holds no response
meanwhile is the model's choice (log 13). -/
def Obligations.TareStartsWaiting : Prop :=
  ∀ s : State, Working s →
    exec .tare s = .next { s with eng := { s.eng with cur := .tare, seq := .poll }, port := { s.port with resp := none } } ∧
    actionsOf .tare s = []

/-- R82: at `POLL` a sample of 1 stays at `POLL` and a sample of 0 starts the exchange; there is no third outcome; the sample is the line's level
under R127's premise. That `sh` is cleared in the step of the last poll (log 3) and that the port holds no response (log 13) are the model's
choices. -/
def Obligations.PollStaysOrMovesOn : Prop :=
  ∀ s : State, s.eng.cur = .tare → s.eng.seq = .poll →
    (sample s = 1#1 → exec .tare s = .next s) ∧
    (sample s = 0#1 → exec .tare s = .next { s with
      eng := { s.eng with sh := 0#24, seq := .hi 1 }, port := { s.port with resp := none } }) ∧
    (LinesConfigured s → sample s = s.env.dout) ∧ actionsOf .tare s = [.sample]

/-- R81, R83: TARE's commit step completes the operation: `offset` and `last_value` both take the raw sample, whatever they were. -/
def Obligations.TareCommits : Prop :=
  ∀ s : State, s.eng.cur = .tare → s.eng.seq = .commit →
    exec .tare s = .next { s with
      eng := { s.eng with offset := sext24 s.eng.sh, lastValue := sext24 s.eng.sh, cur := .none, seq := .idle }
      port := { s.port with resp := some 0#34 } }

/-- R81, R82, R83, R86: TARE from its issue to its response, after any number `n` of polls that see the line high. The count of steps is the
model's (log 3). -/
def Obligations.TareRunsToItsResponse : Prop :=
  ∀ (s : State) (raw : Raw) (n : Nat), Working s → LinesConfigured s → (∀ j, j < n → levelAfter (j + 1) s.env = 1#1) →
    levelAfter (n + 1) s.env = 0#1 → Delivers raw (after (n + 1) s.env) →
    ∃ sh' : Raw, issueAndRun .tare (n + 1 + exchangeSteps s.eng.gain) s = .next
      { eng := { s.eng with offset := sext24 raw, lastValue := sext24 raw, sh := sh', sck := 0#1 }
        port := { s.port with resp := some 0#34 }
        env := after (n + exchangeSteps s.eng.gain + 2) s.env }

/-- R82, R99 (c): while the line stays high TARE stays at `POLL`, with no bound and no error; no command is accepted meanwhile and no
register changes. That the port holds no response while TARE waits is the model's choice (log 13), and so is one poll a step (log 3). -/
def Obligations.TareWaitsWithoutBound : Prop :=
  ∀ (s : State) (n : Nat), Working s → LinesConfigured s → (∀ j, j < n → levelAfter (j + 1) s.env = 1#1) →
    issueAndRun .tare n s = .next
      { eng := { s.eng with cur := .tare, seq := .poll }, port := { s.port with resp := none }, env := after (n + 1) s.env }

/-- TARE's frame: `gain`, `constructed` and everything outside the engine are unchanged, both registers too except at the commit step;
of the port only the response may change (R30, R81). -/
def Obligations.TareFrame : Prop :=
  ∀ s t : State, exec .tare s = .next t →
    t.eng.gain = s.eng.gain ∧ t.eng.constructed = s.eng.constructed ∧ t.env = s.env ∧
    ((t.eng.offset = s.eng.offset ∧ t.eng.lastValue = s.eng.lastValue) ∨ (s.eng.cur = .tare ∧ s.eng.seq = .commit)) ∧
    t.port = { s.port with resp := t.port.resp }

/-- The spec's own inference (R87) from R73 and R81: a TARE that delivers r0 completes, and then a READ that delivers r1, whatever the port and the outside are at the READ, leaves
`last_value` at r1 less r0 and `offset` at r0; and `last_value` at 0 when both are the same. The run lengths are the model's (log 3). -/
def Obligations.TareThenReadCancels : Prop :=
  ∀ (s : State) (r0 : Raw) (n : Nat), Working s → LinesConfigured s → (∀ j, j < n → levelAfter (j + 1) s.env = 1#1) →
    levelAfter (n + 1) s.env = 0#1 → Delivers r0 (after (n + 1) s.env) →
    ∃ t, issueAndRun .tare (n + 1 + exchangeSteps s.eng.gain) s = .next t ∧
      ∀ (port : Port) (env : Env) (r1 : Raw), env.configured = true → env.dout = 0#1 → Delivers r1 env →
        ∃ u, issueAndRun .read (exchangeSteps t.eng.gain) { eng := t.eng, port := port, env := env } = .next u ∧
          u.eng.offset = sext24 r0 ∧ u.eng.lastValue.toInt = (sext24 r1).toInt - (sext24 r0).toInt ∧
          (r1 = r0 → u.eng.lastValue = 0#32)

/-! ## Frames of the other operations, and whole-machine rules -/

/-- The frame of IS_READY, GET_OFFSET and GET_LAST: nothing of the engine and nothing outside changes; of the port only the response
(R30, R72, R84, R85). -/
def Obligations.AccessorsFrame : Prop :=
  ∀ (s t : State) (i : Instr), i = .isReady ∨ i = .getOffset ∨ i = .getLast → exec i s = .next t →
    t.eng = s.eng ∧ t.env = s.env ∧ t.port = { s.port with resp := t.port.resp }

/-- NEW's frame: `sh` and everything outside the engine (the interrupt latch too) are unchanged; of the port only the response; and the
data line is not sampled (R30, R89, R93 (3)). That the latch is left is the model's reading (log 25): R28's table shows 0 after NEW. -/
def Obligations.NewFrame : Prop :=
  ∀ (s t : State) (arg : BitVec 8), exec (.new arg) s = .next t →
    t.eng.sh = s.eng.sh ∧ t.env = s.env ∧ t.port = { s.port with resp := t.port.resp } ∧
    LineAction.sample ∉ actionsOf (.new arg) s

/-- R16, R17, R88: over a step, the two registers change only at a commit step, each to a whole value from this exchange's own samples,
or when NEW constructs the engine. -/
def Obligations.RegistersChangeOnlyAtCommit : Prop :=
  ∀ s t : State, StateOk s → step s = .next t →
    (t.eng.lastValue = s.eng.lastValue ∧ t.eng.offset = s.eng.offset) ∨
    (s.eng.seq = .commit ∧ s.eng.cur = .read ∧ t.eng.lastValue = sext24 s.eng.sh - s.eng.offset ∧
      t.eng.offset = s.eng.offset) ∨
    (s.eng.seq = .commit ∧ s.eng.cur = .tare ∧ t.eng.lastValue = sext24 s.eng.sh ∧ t.eng.offset = sext24 s.eng.sh) ∨
    (s.eng.constructed = false ∧ t.eng.constructed = true ∧ t.eng.offset = 0#32)

/-- R49 (1), R85 (4): along a run of a constructed engine that passes no commit step, both registers keep their values, so GET_LAST
answers the same value however often it is issued. -/
def Obligations.RegistersStableBetweenCommits : Prop :=
  ∀ (n : Nat) (s t : State), StateOk s → s.eng.constructed = true →
    (∀ k u, k < n → runFor k s = .next u → u.eng.seq ≠ .commit) →
    runFor n s = .next t →
    t.eng.lastValue = s.eng.lastValue ∧ t.eng.offset = s.eng.offset

/-- R18, R91, R118: once constructed the engine stays constructed and its `gain` never changes. -/
def Obligations.GainFixedForLife : Prop :=
  ∀ (n : Nat) (s t : State), s.eng.constructed = true → runFor n s = .next t →
    t.eng.constructed = true ∧ t.eng.gain = s.eng.gain

/-- R21: the sequencer moves only from a position to its successors. -/
def Obligations.SequencerFollowsItsPath : Prop :=
  ∀ s t : State, StateOk s → step s = .next t → mayFollow s.eng.gain s.eng.seq t.eng.seq = true

/-- R32, R25: after a step the clock line is at the last level the step's actions drove, and where they drove none it is where it was; with
the lines configured (R127) and the engine constructed that level is on the wire. -/
def Obligations.ClockLineFollowsTheDrives : Prop :=
  ∀ s t : State, step s = .next t → t.eng.sck = lastDriven s.eng.sck (stepActions s) ∧
    (LinesConfigured s → t.eng.constructed = true → clockLine t = some (lastDriven s.eng.sck (stepActions s)))

/-- R33, R38: an operation whose line takes no sample does the same whatever the level of the data line. -/
def Obligations.OnlySamplesReadTheLine : Prop :=
  ∀ (s t : State) (i : Instr) (b : Bit), LineAction.sample ∉ actionsOf i s → exec i s = .next t →
    exec i (withDout b s) = .next (withDout b t)

/-- R111: every operation does the same from either context. -/
def Obligations.ContextsAreAlike : Prop :=
  ∀ (s t : State) (i : Instr) (c : Context), exec i s = .next t → exec i (withCtx c s) = .next (withCtx c t)

/-- R48: an operation issued while another is in progress waits: it does nothing yet. That a waiting operation is `exec` answering the state
it was given is the model's form (log 4). -/
def Obligations.OthersWaitWhileBusy : Prop :=
  ∀ (s : State) (i : Instr), (s.eng.cur = .read ∧ i ≠ .read) ∨ (s.eng.cur = .tare ∧ i ≠ .tare) → exec i s = .next s

/-- R48, R101, R105: while an operation is in progress no command leaves the port, the handler is neither entered nor left, and the
commands that come queue up behind those that wait. -/
def Obligations.OperationInProgressRunsAlone : Prop :=
  ∀ s t : State, s.eng.cur ≠ .none → step s = .next t →
    t.port.ctx = s.port.ctx ∧ t.port.todo = s.port.todo ∧ t.env = advance s.env ∧
    t.env.cmds = s.env.cmds ++ (nextGap s.env).cmds

/-- A step runs the decoded operation: on an idle engine the main context's command, or the interrupt context's next act (log 8), and around it
only the issuer gives the command up, the mark of log 18 is set (the model's choice: only for a TARE or NEW of the interrupt context) and the
gap passes; in progress, the operation that owns the sequence. A READ that SERVICE does not
issue is no operation: the act passes. -/
def Obligations.StepRunsTheDecodedOperation : Prop :=
  (∀ (s : State) (c : Command) (r : List Command) (i : Instr), Idle s → s.port.ctx = .main → entersHandler s = false →
    s.env.cmds = c :: r → decode c = .instr i →
    step s = thenGap (exec i { s with env := { s.env with cmds := r } })) ∧
  (∀ (s : State) (r : List HandlerStep), Idle s → s.port.ctx = .irq → s.port.todo = .isReady :: r →
    step s = thenGap (exec .isReady { s with port := { s.port with todo := r } })) ∧
  (∀ (s : State) (r : List HandlerStep), Idle s → s.port.ctx = .irq → s.port.todo = .readIfReady :: r →
    (s.port.resp = some 1#34 → step s = thenGap (exec .read { s with port := { s.port with todo := r } })) ∧
    (s.port.resp ≠ some 1#34 → step s = .next (passGap { s with port := { s.port with todo := r } }))) ∧
  (∀ (s : State) (r : List HandlerStep) (c : Command) (i : Instr), Idle s → s.port.ctx = .irq → s.port.todo = .issue c :: r →
    decode c = .instr i →
    step s = thenGap (exec i { s with port := { s.port with
      todo := r, irqBreach := s.port.irqBreach || barredInHandler i } })) ∧
  (∀ s : State, s.eng.cur = .read → step s = thenGap (exec .read s)) ∧
  (∀ s : State, s.eng.cur = .tare → step s = thenGap (exec .tare s))

/-! ## The ready interrupt -/

/-- R104, R106, R108: after a step `irq_pend` is set exactly if it was set and the handler was not entered, or the line fell in the gap: in every
state, an operation in progress or not, the interrupt enabled or not. The 'exactly' rests on the model's choices too: the host cannot clear
the latch (log 10), the edge is DOUT's falling one, data bits included (log 17), and NEW leaves the latch (log 25). -/
def Obligations.LatchHoldsTheFallingEdge : Prop :=
  ∀ s t : State, step s = .next t →
    (t.env.irqPend = true ↔
      (s.env.irqPend = true ∧ ¬(s.eng.cur = .none ∧ s.port.ctx = .main ∧ entersHandler s = true)) ∨
      ∃ pre post : List Bit, s.env.dout :: (nextGap s.env).levels = pre ++ 1#1 :: 0#1 :: post)

/-- R106: the handler is entered when the latch is set, the interrupt enabled and no operation in progress (here with no command that
falls together with it): the latch is cleared, the interrupt context issues, nothing of the engine changes. -/
def Obligations.HandlerEntryChangesOnlyTheContext : Prop :=
  ∀ s : State, Idle s → s.port.ctx = .main → s.env.irqPend = true → s.env.irqEnabled = true → s.env.cmds = [] →
    step s = .next { eng := s.eng, port := { s.port with ctx := .irq, todo := s.env.handler },
                     env := advance { s.env with irqPend := false } }

/-- R106, R105: if a step enters the interrupt context then the latch was set, the interrupt enabled and no operation was in progress. -/
def Obligations.HandlerEnteredOnlyWhenAllowed : Prop :=
  ∀ s t : State, s.port.ctx = .main → step s = .next t → t.port.ctx = .irq →
    s.env.irqPend = true ∧ s.env.irqEnabled = true ∧ s.eng.cur = .none

/-- R101: when the handler's entry and a main-context command, a reserved word too, fall together, either goes first; the model's own
`handlerFirst` says which (log 9), and both orders exist. -/
def Obligations.EitherMayGoFirst : Prop :=
  ∀ (s : State) (c : Command) (r : List Command), Idle s → s.port.ctx = .main → s.env.irqPend = true →
    s.env.irqEnabled = true → s.env.cmds = c :: r →
    (s.env.handlerFirst = true → step s = .next (passGap (enterHandler s))) ∧
    (s.env.handlerFirst = false →
      (∀ i, decode c = .instr i → step s = thenGap (exec i { s with env := { s.env with cmds := r } })) ∧
      ((∀ i, decode c ≠ .instr i) →
        step s = .next { eng := s.eng, port := { s.port with resp := some 0x300000000#34 },
                         env := advance { s.env with cmds := r } }))

/-- R107, R109 (the handler as a list of acts: log 8): SERVICE when the handler's sample sees the line high: entry, IS_READY, no
READ, return; nothing of the engine changed. The four steps are the model's (log 8). -/
def Obligations.ServiceNotReadyReadsNothing : Prop :=
  ∀ (s : State) (env : Env), Working s → LinesConfigured s → s.port.ctx = .main → entersHandler s = true →
    s.env.handler = [.isReady, .readIfReady] → env = { s.env with irqPend := false } → levelAfter 1 env = 1#1 →
    runFor 4 s = .next
      { eng := s.eng, port := { s.port with ctx := .main, todo := [], resp := some 0#34 }, env := after 4 env }

/-- R107, R109 (the handler as a list of acts: log 8): SERVICE when the line is low for the handler's sample and for READ's gate: one READ, and
then the return. The run's length is the model's (log 3). -/
def Obligations.ServiceReadyReadsOnce : Prop :=
  ∀ (s : State) (env : Env) (raw : Raw), Working s → LinesConfigured s → s.port.ctx = .main → entersHandler s = true →
    s.env.handler = [.isReady, .readIfReady] → env = { s.env with irqPend := false } → levelAfter 1 env = 0#1 →
    levelAfter 2 env = 0#1 → Delivers raw (after 2 env) →
    ∃ sh' : Raw, runFor (exchangeSteps s.eng.gain + 4) s = .next
      { eng := { s.eng with lastValue := sext24 raw - s.eng.offset, sh := sh', sck := 0#1 }
        port := { s.port with ctx := .main, todo := [], resp := some (0#2 ++ (sext24 raw - s.eng.offset)) }
        env := after (exchangeSteps s.eng.gain + 4) env }

/-- R112, U11: a TARE or NEW that the handler issues is marked and runs all the same; no other issue sets the mark. The mark is the model's
(log 18). -/
def Obligations.HandlerTareIsMarkedAndRuns : Prop :=
  ∀ (s : State) (c : Command) (r : List HandlerStep) (i : Instr), Idle s → s.port.ctx = .irq →
    s.port.todo = .issue c :: r → decode c = .instr i →
    step s = thenGap (exec i { s with port := { s.port with
      todo := r, irqBreach := s.port.irqBreach || barredInHandler i } }) ∧
    (barredInHandler i = true ↔ i = .tare ∨ ∃ arg, i = .new arg)

/-- R74, R112: a run leaves the caller contract only when a READ is issued whose gate samples high, or the handler issues a TARE or a NEW. That
the second is a mark, and that a READ from the handler outside SERVICE is none, are the model's choices (log 18). -/
def Obligations.ContractBrokenOnlyByTheHost : Prop :=
  ∀ s t : State, step s = .next t → WithinContract s → ¬WithinContract t →
    (∃ u, select s = .run .read u ∧ Working u ∧ sample u = 1#1) ∨
    (s.port.ctx = .irq ∧ ∃ i u, select s = .run i u ∧ (i = .tare ∨ ∃ arg, i = .new arg))

/-- R74: the mark of a not-ready READ is never cleared, by no step of any run; and the same of the mark of a TARE or NEW from the handler, which
is the model's own (log 18; R112 names the violation and no mark). -/
def Obligations.MarksAreNeverCleared : Prop :=
  ∀ (n : Nat) (s t : State), runFor n s = .next t →
    (s.port.notReadyRead = true → t.port.notReadyRead = true) ∧ (s.port.irqBreach = true → t.port.irqBreach = true)

/-! ## Reset and the invariant -/

/-- R117, R120: what reset leaves: not constructed, `IDLE`, `NONE`, nothing pending, interrupt disabled, the clock line not driven; at power-on
and at a hardware reset of any state. -/
def Obligations.ResetLeavesAnIdleEngine : Prop :=
  ∀ s : State, s = State.reset ∨ (∃ u, s = hardwareReset u) →
    s.eng.constructed = false ∧ s.eng.seq = .idle ∧ s.eng.cur = .none ∧ s.env.irqPend = false ∧ s.env.irqEnabled = false ∧
    clockLine s = none

/-- The invariant holds after reset, and after a hardware reset of any state. -/
def Obligations.InvariantAfterReset : Prop :=
  StateOk State.reset ∧ ∀ s, StateOk (hardwareReset s)

/-- The invariant of `StateOk` is kept by every step, from every state that meets it: the sequencer's place, construction, `gain`, the clock
line's level, the range of `offset`, the contexts. -/
def Obligations.StepKeepsTheInvariant : Prop :=
  ∀ s t : State, StateOk s → step s = .next t → StateOk t

/-- R11, R99: from every state that meets the invariant every step answers a next state: the machine never stops, whatever commands come
and whatever the converter does. -/
def Obligations.MachineNeverStops : Prop :=
  ∀ (n : Nat) (s : State), StateOk s → ∃ t, runFor n s = .next t ∧ StateOk t

/-- R127: the launch premise is kept along every run, whatever the commands, the host and the converter do. That no step configures the lines
or undoes it is the model's choice (log 26). -/
def Obligations.LaunchPremiseIsKept : Prop :=
  ∀ (n : Nat) (s t : State), runFor n s = .next t → (LinesConfigured t ↔ LinesConfigured s)

/-- R28's table: in the idle state of its first column (after a hardware reset, the line not having fallen since) a NEW with a legal gain leaves
its second column, `irq_pend` = 0 with the rest, and `sh` as it was; `last_value` is some value. What a NEW does to a latch that an edge before
it has set is the reading of log 25. -/
def Obligations.InitialisationPoints : Prop :=
  ∀ (s : State) (arg : BitVec 8) (g : BitVec 2), Idle s → s.eng.constructed = false → s.env.irqPend = false →
    (arg = 128#8 ∧ g = 1#2) ∨ (arg = 64#8 ∧ g = 2#2) ∨ (arg = 32#8 ∧ g = 3#2) →
    ∃ t, exec (.new arg) s = .next t ∧ t.eng.constructed = true ∧ Idle t ∧ t.env.irqPend = false ∧ t.eng.gain = g ∧
      t.eng.offset = 0#32 ∧ t.eng.sh = s.eng.sh ∧ t.eng.sck = 0#1 ∧ (LinesConfigured s → clockLine t = some 0#1)
end

