-- ==== Sys2Proof/Laws/State.lean ====
section
/-!
SUPPORT. One lemma per field per update, true by unfolding, so that no later proof unfolds a record update; and the invariance of what a
named update leaves alone.
-/

namespace Sys2Proof.Machine

/-! ### `withResp`: only the response changes. -/

@[simp] theorem withResp_eng (r : Option Response) (s : State) : (withResp r s).eng = s.eng := rfl
@[simp] theorem withResp_env (r : Option Response) (s : State) : (withResp r s).env = s.env := rfl
@[simp] theorem withResp_resp (r : Option Response) (s : State) : (withResp r s).port.resp = r := rfl
@[simp] theorem withResp_ctx (r : Option Response) (s : State) : (withResp r s).port.ctx = s.port.ctx := rfl
@[simp] theorem withResp_todo (r : Option Response) (s : State) : (withResp r s).port.todo = s.port.todo := rfl
@[simp] theorem withResp_notReadyRead (r : Option Response) (s : State) :
    (withResp r s).port.notReadyRead = s.port.notReadyRead := rfl
@[simp] theorem withResp_irqBreach (r : Option Response) (s : State) :
    (withResp r s).port.irqBreach = s.port.irqBreach := rfl
@[simp] theorem withResp_withResp (r q : Option Response) (s : State) : withResp r (withResp q s) = withResp r s := rfl

/-! ### `withTodo` and `withCmds`. -/

@[simp] theorem withTodo_eng (r : List HandlerStep) (s : State) : (withTodo r s).eng = s.eng := rfl
@[simp] theorem withTodo_env (r : List HandlerStep) (s : State) : (withTodo r s).env = s.env := rfl
@[simp] theorem withTodo_todo (r : List HandlerStep) (s : State) : (withTodo r s).port.todo = r := rfl
@[simp] theorem withTodo_ctx (r : List HandlerStep) (s : State) : (withTodo r s).port.ctx = s.port.ctx := rfl
@[simp] theorem withTodo_resp (r : List HandlerStep) (s : State) : (withTodo r s).port.resp = s.port.resp := rfl
@[simp] theorem withTodo_notReadyRead (r : List HandlerStep) (s : State) :
    (withTodo r s).port.notReadyRead = s.port.notReadyRead := rfl
@[simp] theorem withTodo_irqBreach (r : List HandlerStep) (s : State) :
    (withTodo r s).port.irqBreach = s.port.irqBreach := rfl

@[simp] theorem withCmds_eng (r : List Command) (s : State) : (withCmds r s).eng = s.eng := rfl
@[simp] theorem withCmds_port (r : List Command) (s : State) : (withCmds r s).port = s.port := rfl
@[simp] theorem withCmds_cmds (r : List Command) (s : State) : (withCmds r s).env.cmds = r := rfl
@[simp] theorem withCmds_dout (r : List Command) (s : State) : (withCmds r s).env.dout = s.env.dout := rfl
@[simp] theorem withCmds_configured (r : List Command) (s : State) : (withCmds r s).env.configured = s.env.configured := rfl
@[simp] theorem withCmds_handler (r : List Command) (s : State) : (withCmds r s).env.handler = s.env.handler := rfl
@[simp] theorem withCmds_irqPend (r : List Command) (s : State) : (withCmds r s).env.irqPend = s.env.irqPend := rfl
@[simp] theorem withCmds_irqEnabled (r : List Command) (s : State) :
    (withCmds r s).env.irqEnabled = s.env.irqEnabled := rfl
@[simp] theorem withCmds_gaps (r : List Command) (s : State) : (withCmds r s).env.gaps = s.env.gaps := rfl
@[simp] theorem withCmds_tick (r : List Command) (s : State) : (withCmds r s).env.tick = s.env.tick := rfl
@[simp] theorem nextGap_withCmds (r : List Command) (s : State) : nextGap (withCmds r s).env = nextGap s.env := rfl

/-! ### `noteBreach`: only the mark of R112 changes, and from the main context not even that. -/

@[simp] theorem noteBreach_eng (i : Instr) (s : State) : (noteBreach i s).eng = s.eng := rfl
@[simp] theorem noteBreach_env (i : Instr) (s : State) : (noteBreach i s).env = s.env := rfl
@[simp] theorem noteBreach_resp (i : Instr) (s : State) : (noteBreach i s).port.resp = s.port.resp := rfl
@[simp] theorem noteBreach_ctx (i : Instr) (s : State) : (noteBreach i s).port.ctx = s.port.ctx := rfl
@[simp] theorem noteBreach_todo (i : Instr) (s : State) : (noteBreach i s).port.todo = s.port.todo := rfl
@[simp] theorem noteBreach_notReadyRead (i : Instr) (s : State) :
    (noteBreach i s).port.notReadyRead = s.port.notReadyRead := rfl

theorem noteBreach_main (i : Instr) (s : State) (h : s.port.ctx = .main) : noteBreach i s = s := by
  obtain ⟨eng, port, env⟩ := s
  obtain ⟨resp, ctx, todo, nr, br⟩ := port
  simp only at h
  subst h
  simp [noteBreach]

/-! ### The handler's entry and return: nothing of the engine changes (R106, R109). -/

@[simp] theorem enterHandler_eng (s : State) : (enterHandler s).eng = s.eng := rfl
@[simp] theorem enterHandler_ctx (s : State) : (enterHandler s).port.ctx = .irq := rfl
@[simp] theorem enterHandler_todo (s : State) : (enterHandler s).port.todo = s.env.handler := rfl
@[simp] theorem enterHandler_resp (s : State) : (enterHandler s).port.resp = s.port.resp := rfl
@[simp] theorem enterHandler_notReadyRead (s : State) : (enterHandler s).port.notReadyRead = s.port.notReadyRead := rfl
@[simp] theorem enterHandler_irqBreach (s : State) : (enterHandler s).port.irqBreach = s.port.irqBreach := rfl
@[simp] theorem enterHandler_env (s : State) : (enterHandler s).env = { s.env with irqPend := false } := rfl

@[simp] theorem leaveHandler_eng (s : State) : (leaveHandler s).eng = s.eng := rfl
@[simp] theorem leaveHandler_env (s : State) : (leaveHandler s).env = s.env := rfl
@[simp] theorem leaveHandler_ctx (s : State) : (leaveHandler s).port.ctx = .main := rfl
@[simp] theorem leaveHandler_todo (s : State) : (leaveHandler s).port.todo = s.port.todo := rfl
@[simp] theorem leaveHandler_resp (s : State) : (leaveHandler s).port.resp = s.port.resp := rfl
@[simp] theorem leaveHandler_notReadyRead (s : State) : (leaveHandler s).port.notReadyRead = s.port.notReadyRead := rfl
@[simp] theorem leaveHandler_irqBreach (s : State) : (leaveHandler s).port.irqBreach = s.port.irqBreach := rfl

/-! ### The gap: only the outside changes. -/

@[simp] theorem passGap_eng (s : State) : (passGap s).eng = s.eng := rfl
@[simp] theorem passGap_port (s : State) : (passGap s).port = s.port := rfl
@[simp] theorem passGap_env (s : State) : (passGap s).env = advance s.env := rfl

@[simp] theorem advance_configured (env : Env) : (advance env).configured = env.configured := rfl
@[simp] theorem advance_handler (env : Env) : (advance env).handler = (nextGap env).handler.getD env.handler := rfl
@[simp] theorem advance_dout (env : Env) : (advance env).dout = settle env.dout (nextGap env).levels := rfl
@[simp] theorem advance_irqPend (env : Env) :
    (advance env).irqPend = (env.irqPend || edgeSeen env.dout (nextGap env).levels) := rfl
@[simp] theorem advance_cmds (env : Env) : (advance env).cmds = env.cmds ++ (nextGap env).cmds := rfl
@[simp] theorem advance_gaps (env : Env) : (advance env).gaps = env.gaps.tail := rfl
@[simp] theorem advance_tick (env : Env) : (advance env).tick = env.tick + 1 := rfl

/-! ### `beginExchange`. -/

@[simp] theorem beginExchange_seq (op : Cur) (s : State) : (beginExchange op s).eng.seq = .hi 1 := rfl
@[simp] theorem beginExchange_cur (op : Cur) (s : State) : (beginExchange op s).eng.cur = op := rfl
@[simp] theorem beginExchange_sh (op : Cur) (s : State) : (beginExchange op s).eng.sh = 0#24 := rfl
@[simp] theorem beginExchange_gain (op : Cur) (s : State) : (beginExchange op s).eng.gain = s.eng.gain := rfl
@[simp] theorem beginExchange_offset (op : Cur) (s : State) : (beginExchange op s).eng.offset = s.eng.offset := rfl
@[simp] theorem beginExchange_lastValue (op : Cur) (s : State) :
    (beginExchange op s).eng.lastValue = s.eng.lastValue := rfl
@[simp] theorem beginExchange_sck (op : Cur) (s : State) : (beginExchange op s).eng.sck = s.eng.sck := rfl
@[simp] theorem beginExchange_constructed (op : Cur) (s : State) :
    (beginExchange op s).eng.constructed = s.eng.constructed := rfl
@[simp] theorem beginExchange_env (op : Cur) (s : State) : (beginExchange op s).env = s.env := rfl

/-! ### Answers. -/

@[simp] theorem thenGap_next (s : State) : thenGap (.next s) = .next (passGap s) := rfl
@[simp] theorem thenGap_fault (r : Fault) : thenGap (.fault r) = .fault r := rfl
@[simp] theorem thenGap_refused (r : Refusal) : thenGap (.refused r) = .refused r := rfl

/-! ### A sample reads the outside alone (R33). -/

@[simp] theorem sample_withResp (r : Option Response) (s : State) : sample (withResp r s) = sample s := rfl
@[simp] theorem sample_withTodo (r : List HandlerStep) (s : State) : sample (withTodo r s) = sample s := rfl
@[simp] theorem sample_withCmds (r : List Command) (s : State) : sample (withCmds r s) = sample s := rfl
@[simp] theorem sample_noteBreach (i : Instr) (s : State) : sample (noteBreach i s) = sample s := rfl
@[simp] theorem sample_beginExchange (op : Cur) (s : State) : sample (beginExchange op s) = sample s := rfl

/-- Under the launch premise of R127 a sample is the line's level. -/
theorem sample_of_configured {s : State} (h : s.env.configured = true) : sample s = s.env.dout := by
  simp [sample, h]

/-- `withFetchWord` puts exactly the word at the port (R54). -/
theorem withFetchWord_cmds (s : State) (nbits w : Nat) :
    (s.withFetchWord nbits w).env.cmds = BitVec.ofNat 11 (w % 2 ^ nbits) :: s.env.cmds := rfl

end Sys2Proof.Machine
end

