-- ==== Sys2Proof/Laws/Ops.lean ====
section
/-!
SUPPORT. One lemma per shared operation that says everything it can do. Later proofs cite these and do not unfold the operations.
-/

namespace Sys2Proof.Machine

/-! ### Answers and the checks every operation begins with -/

/-- An answer that goes on after the gap went on before it. -/
theorem thenGap_eq_next {a : Answer} {t : State} (h : thenGap a = .next t) : ∃ u, a = .next u ∧ t = passGap u := by
  cases a with
  | next u => exact ⟨u, rfl, by simpa using h.symm⟩
  | fault r => simp at h
  | refused r => simp at h

/-- On an idle engine the command's body runs. -/
theorem accept_idle {s : State} (h : Idle s) (b : Answer) : accept s b = b := by
  simp [accept, h.1, h.2]

/-- On a busy engine the command waits (R48). -/
theorem accept_busy {s : State} (h : s.eng.cur ≠ .none) (b : Answer) : accept s b = .next s := by
  unfold accept
  split <;> simp_all

/-- Everything `accept` can do. -/
theorem accept_cases {s : State} {b : Answer} {t : State} (h : accept s b = .next t) :
    (Idle s ∧ b = .next t) ∨ (s.eng.cur ≠ .none ∧ t = s) := by
  unfold accept at h
  split at h
  · next hc =>
    split at h
    · next hs => exact .inl ⟨⟨hc, hs⟩, h⟩
    · cases h
  · next hc => cases h; exact .inr ⟨by simp [hc], rfl⟩
  · next hc => cases h; exact .inr ⟨by simp [hc], rfl⟩

/-- On a working engine the body runs (R71). -/
theorem whenBuilt_working {s : State} (h : Working s) (b : Answer) : whenBuilt s b = b := by
  simp [whenBuilt, accept_idle h.1, h.2]

/-- Everything `whenBuilt` can do. -/
theorem whenBuilt_cases {s : State} {b : Answer} {t : State} (h : whenBuilt s b = .next t) :
    (Working s ∧ b = .next t) ∨
    (Idle s ∧ s.eng.constructed = false ∧ t = withResp (some (errResponse .state)) s) ∨
    (s.eng.cur ≠ .none ∧ t = s) := by
  rcases accept_cases h with ⟨hi, hb⟩ | hw
  · cases hc : s.eng.constructed with
    | true => exact .inl ⟨⟨hi, hc⟩, by simpa [hc] using hb⟩
    | false => exact .inr (.inl ⟨hi, rfl, by simpa [hc, reject] using hb.symm⟩)
  · exact .inr (.inr hw)

/-- An OK response is no error response. -/
theorem okResponse_ne_errResponse (d : Word) (e : ErrName) : okResponse d ≠ errResponse e := by
  intro h
  have h1 : (0#2 ++ d : BitVec (2 + 32)).toNat = (errCode e ++ 0#32 : BitVec (2 + 32)).toNat :=
    congrArg BitVec.toNat h
  have h2 := d.isLt
  rw [BitVec.toNat_append, BitVec.toNat_append] at h1
  cases e <;> simp [errCode] at h1 <;> omega

/-! ### The lines and the outside -/

/-- The two levels a line can have. -/
theorem bit_cases (b : Bit) : b = 0#1 ∨ b = 1#1 := by
  revert b; decide

/-- `isLow` as an equation (R41). -/
@[simp] theorem isLow_iff (b : Bit) : isLow b = true ↔ b = 0#1 := by
  simp [isLow]

/-- The falling edge is the interrupt's (R104), as a place in the line's levels. -/
theorem edgeSeen_iff (d : Bit) (ls : List Bit) :
    edgeSeen d ls = true ↔ ∃ pre post, d :: ls = pre ++ 1#1 :: 0#1 :: post := by
  induction ls generalizing d with
  | nil =>
    simp only [edgeSeen, Bool.false_eq_true, false_iff]
    rintro ⟨pre, post, h⟩
    have := congrArg List.length h
    simp only [List.length_append, List.length_cons, List.length_nil] at this
    omega
  | cons l ls ih =>
    simp only [edgeSeen, Bool.or_eq_true, ih l]
    constructor
    · rintro (h | ⟨pre, post, h⟩)
      · simp only [makesEdge, irqEdge, Bool.and_eq_true, beq_iff_eq] at h
        exact ⟨[], ls, by simp [h.1, h.2]⟩
      · exact ⟨d :: pre, post, by simp [h]⟩
    · rintro ⟨pre, post, h⟩
      cases pre with
      | nil =>
        simp only [List.nil_append, List.cons.injEq] at h
        exact .inl (by simp [makesEdge, irqEdge, h.1, h.2.1])
      | cons p pre =>
        simp only [List.cons_append, List.cons.injEq] at h
        exact .inr ⟨pre, post, h.2⟩

/-- `n` gaps and then one more. -/
theorem after_succ (n : Nat) (env : Env) : after (n + 1) env = advance (after n env) := by
  induction n generalizing env with
  | zero => rfl
  | succ n ih => exact ih (advance env)

/-- Gaps add up. -/
theorem after_add (m n : Nat) (env : Env) : after (m + n) env = after n (after m env) := by
  induction m generalizing env with
  | zero => simp [after]
  | succ m ih => rw [Nat.add_right_comm]; exact ih (advance env)

/-- The order of gaps does not matter: they are all one kind of step. -/
theorem after_advance (n : Nat) (env : Env) : after n (advance env) = advance (after n env) :=
  (after_succ n env ▸ rfl : after (n + 1) env = advance (after n env))

/-- A longer span stalls no less. -/
theorem stallOver_le_succ (n : Nat) (env : Env) : stallOver n env ≤ stallOver (n + 1) env := by
  induction n generalizing env with
  | zero => exact Nat.zero_le _
  | succ n ih => exact Nat.add_le_add_left (ih (advance env)) _

/-- R130's span holds R129's: it is longer by the gap before the commit step. -/
theorem windowMet_of_notPreempted {gain : BitVec 2} {env : Env} (h : NotPreempted gain env) : WindowMet gain env := by
  have hp : 3 * pulses gain = 3 * pulses gain - 1 + 1 := by simp only [pulses, nData]; omega
  have hle := stallOver_le_succ (3 * pulses gain - 1) (advance env)
  rw [← hp] at hle
  exact Nat.lt_of_le_of_lt (Nat.add_le_add_left hle _) h

/-! ### The sequencer -/

/-- Everything a line of the exchange can do (R75): it touches `sck`, `seq` and `sh`, and only a sample in a data pulse touches `sh`. -/
theorem exchangeLine_cases {b : Bit} {e e' : Engine} (h : exchangeLine b e = some e') :
    (∃ k, e.seq = .hi k ∧ e' = { e with sck := 1#1, seq := .smp k }) ∨
    (∃ k, e.seq = .smp k ∧ k ≤ nData ∧ e' = { e with sh := shiftIn e.sh b, seq := .lo k }) ∨
    (∃ k, e.seq = .smp k ∧ nData < k ∧ e' = { e with seq := .lo k }) ∨
    (∃ k, e.seq = .lo k ∧ e' = { e with sck := 0#1, seq := afterLow e.gain k }) := by
  unfold exchangeLine at h
  split at h
  · next k hk => exact .inl ⟨k, hk, by simpa [delay, drive] using h.symm⟩
  · next k hk =>
    by_cases hd : k ≤ nData
    · exact .inr (.inl ⟨k, hk, hd, by simpa [hd] using h.symm⟩)
    · exact .inr (.inr (.inl ⟨k, hk, by omega, by simpa [hd] using h.symm⟩))
  · next k hk => exact .inr (.inr (.inr ⟨k, hk, by simpa [delay, drive] using h.symm⟩))
  all_goals cases h

/-- Everything `exchangeOn` can do: one line, and nothing outside the engine. -/
theorem exchangeOn_cases {s t : State} (h : exchangeOn s = .next t) :
    ∃ e, exchangeLine (sample s) s.eng = some e ∧ t = { s with eng := e } := by
  unfold exchangeOn at h
  split at h
  · next e he => cases h; exact ⟨e, he, rfl⟩
  · cases h

/-! ### The meanings: everything each can do -/

/-- Everything NEW can do. -/
theorem execNew_cases {arg : BitVec 8} {s t : State} (h : execNew arg s = .next t) :
    (Idle s ∧ s.eng.constructed = true ∧ t = withResp (some (errResponse .state)) s) ∨
    (Idle s ∧ s.eng.constructed = false ∧ gainPulses arg = none ∧ t = withResp (some (errResponse .gain)) s) ∨
    (∃ g, Idle s ∧ s.eng.constructed = false ∧ gainPulses arg = some g ∧
      t = withResp (some (okResponse 0#32)) { s with
        eng := { s.eng with gain := g, offset := offsetInit, lastValue := Config.lastInit s.env.tick, sck := 0#1,
                            cur := .none, seq := .idle, constructed := true } }) ∨
    (s.eng.cur ≠ .none ∧ t = s) := by
  rcases accept_cases h with ⟨hi, hb⟩ | hw
  · cases hc : s.eng.constructed with
    | true => exact .inl ⟨hi, rfl, by simpa [hc, reject] using hb.symm⟩
    | false =>
      refine .inr ?_
      cases hg : gainPulses arg with
      | none => exact .inl ⟨hi, rfl, rfl, by simpa [hc, hg, reject] using hb.symm⟩
      | some g => exact .inr (.inl ⟨g, hi, rfl, rfl, by simpa [hc, hg, finish, respond, drive] using hb.symm⟩)
  · exact .inr (.inr (.inr hw))

/-- Everything an operation that only answers data can do. -/
theorem answer_cases {d : Word} {s t : State} (h : whenBuilt s (respond d s) = .next t) :
    (∃ r, Idle s ∧ t = withResp (some r) s) ∨ (s.eng.cur ≠ .none ∧ t = s) := by
  rcases whenBuilt_cases h with ⟨hw, hb⟩ | ⟨hi, _, rfl⟩ | hw
  · exact .inl ⟨okResponse d, hw.1, by simpa [respond] using hb.symm⟩
  · exact .inl ⟨_, hi, rfl⟩
  · exact .inr hw

/-- Everything READ can do. -/
theorem execRead_cases {s t : State} (h : execRead s = .next t) :
    (s.eng.cur = .read ∧ s.eng.seq = .commit ∧
      t = withResp (some (okResponse (corrected s.eng.sh s.eng.offset)))
        { s with eng := { s.eng with lastValue := corrected s.eng.sh s.eng.offset, cur := .none, seq := .idle } }) ∨
    (s.eng.cur = .read ∧ ∃ e, exchangeLine (sample s) s.eng = some e ∧ t = { s with eng := e }) ∨
    (Working s ∧ sample s = 0#1 ∧ t = beginExchange .read s) ∨
    (Working s ∧ sample s = 1#1 ∧
      (t = beginExchange .read { s with port := { s.port with notReadyRead := true } } ∨
       ∃ d, t = withResp (some (okResponse d)) { s with port := { s.port with notReadyRead := true } })) ∨
    (Idle s ∧ s.eng.constructed = false ∧ t = withResp (some (errResponse .state)) s) ∨
    (s.eng.cur = .tare ∧ t = s) := by
  unfold execRead at h
  split at h
  · next hc =>
    split at h
    · next hs => exact .inl ⟨hc, hs, by simpa [commitRead, finish, respond] using h.symm⟩
    · exact .inr (.inl ⟨hc, exchangeOn_cases h⟩)
  · next hc =>
    rcases whenBuilt_cases h with ⟨hw, hb⟩ | hu | ⟨hn, _⟩
    · rcases bit_cases (sample s) with hd | hd
      · exact .inr (.inr (.inl ⟨hw, hd, by simpa [hd, isLow] using hb.symm⟩))
      · refine .inr (.inr (.inr (.inl ⟨hw, hd, ?_⟩)))
        simp only [hd, isLow, readNotReady] at hb
        split at hb
        · exact .inl (by simp_all)
        · simp only [respond] at hb
          split at hb
          · exact .inl (by cases hb; rfl)
          · exact .inr ⟨_, by cases hb; rfl⟩
    · exact .inr (.inr (.inr (.inr (.inl hu))))
    · exact absurd hc hn
  · next hc =>
    rw [whenBuilt, accept_busy (by simp [hc])] at h
    exact .inr (.inr (.inr (.inr (.inr ⟨hc, by cases h; rfl⟩))))

/-- Everything TARE can do. -/
theorem execTare_cases {s t : State} (h : execTare s = .next t) :
    (s.eng.cur = .tare ∧ s.eng.seq = .commit ∧
      t = withResp (some (okResponse 0#32))
        { s with eng := { s.eng with lastValue := sext24 s.eng.sh, offset := sext24 s.eng.sh, cur := .none, seq := .idle } }) ∨
    (s.eng.cur = .tare ∧ s.eng.seq = .poll ∧ sample s = 0#1 ∧ t = beginExchange .tare s) ∨
    (s.eng.cur = .tare ∧ s.eng.seq = .poll ∧ sample s = 1#1 ∧ t = s) ∨
    (s.eng.cur = .tare ∧ ∃ e, exchangeLine (sample s) s.eng = some e ∧ t = { s with eng := e }) ∨
    (Working s ∧ t = beginTare s) ∨
    (Idle s ∧ s.eng.constructed = false ∧ t = withResp (some (errResponse .state)) s) ∨
    (s.eng.cur = .read ∧ t = s) := by
  unfold execTare at h
  split at h
  · next hc =>
    split at h
    · next hs =>
      rcases bit_cases (sample s) with hd | hd
      · exact .inr (.inl ⟨hc, hs, hd, by simpa [pollOnce, hd, isLow] using h.symm⟩)
      · exact .inr (.inr (.inl ⟨hc, hs, hd, by simpa [pollOnce, hd, isLow] using h.symm⟩))
    · split at h
      · next hs => exact .inl ⟨hc, hs, by simpa [commitTare, finish, respond] using h.symm⟩
      · exact .inr (.inr (.inr (.inl ⟨hc, exchangeOn_cases h⟩)))
  · next hc =>
    rcases whenBuilt_cases h with ⟨hw, hb⟩ | hu | ⟨hn, _⟩
    · exact .inr (.inr (.inr (.inr (.inl ⟨hw, by cases hb; rfl⟩))))
    · exact .inr (.inr (.inr (.inr (.inr (.inl hu)))))
    · exact absurd hc hn
  · next hc =>
    rw [whenBuilt, accept_busy (by simp [hc])] at h
    exact .inr (.inr (.inr (.inr (.inr (.inr ⟨hc, by cases h; rfl⟩)))))

/-- Everything a meaning leaves alone: the lines and the outside, the contexts, the mark of R112. The mark of R74 is set by a
not-ready READ alone. -/
theorem exec_outside {i : Instr} {s t : State} (h : exec i s = .next t) :
    t.env = s.env ∧ t.port.ctx = s.port.ctx ∧ t.port.todo = s.port.todo ∧
    t.port.irqBreach = s.port.irqBreach ∧
    (t.port.notReadyRead = s.port.notReadyRead ∨
      (i = .read ∧ Working s ∧ sample s = 1#1 ∧ t.port.notReadyRead = true)) := by
  cases i with
  | new a =>
    rcases execNew_cases h with ⟨_, _, rfl⟩ | ⟨_, _, _, rfl⟩ | ⟨_, _, _, _, rfl⟩ | ⟨_, rfl⟩ <;> simp
  | isReady => rcases answer_cases h with ⟨_, _, rfl⟩ | ⟨_, rfl⟩ <;> simp
  | getOffset => rcases answer_cases h with ⟨_, _, rfl⟩ | ⟨_, rfl⟩ <;> simp
  | getLast => rcases answer_cases h with ⟨_, _, rfl⟩ | ⟨_, rfl⟩ <;> simp
  | read =>
    rcases execRead_cases h with
      ⟨_, _, rfl⟩ | ⟨_, _, _, rfl⟩ | ⟨_, _, rfl⟩ | ⟨hw, hd, rfl | ⟨d, rfl⟩⟩ | ⟨_, _, rfl⟩ | ⟨_, rfl⟩
    · simp
    · simp
    · simp [beginExchange]
    · exact ⟨rfl, rfl, rfl, rfl, .inr ⟨rfl, hw, hd, rfl⟩⟩
    · exact ⟨rfl, rfl, rfl, rfl, .inr ⟨rfl, hw, hd, rfl⟩⟩
    · simp
    · simp
  | tare =>
    rcases execTare_cases h with
      ⟨_, _, rfl⟩ | ⟨_, _, _, rfl⟩ | ⟨_, _, _, rfl⟩ | ⟨_, _, _, rfl⟩ | ⟨_, rfl⟩ | ⟨_, _, rfl⟩ | ⟨_, rfl⟩ <;>
      simp [beginExchange, beginTare]

/-! ### What a step does -/

/-- A step that goes on is a turn that goes on, and the gap. -/
theorem step_eq_next {s t : State} (h : step s = .next t) : ∃ u, turn s = .next u ∧ t = passGap u :=
  thenGap_eq_next h

/-- A word taken from the port is an operation, issued with the mark of R112, or it is none. -/
theorem takeCommand_cases (c : Command) (s : State) :
    (∃ i, decode c = .instr i ∧ takeCommand c s = .run i (noteBreach i s)) ∨ takeCommand c s = .badCommand s := by
  unfold takeCommand
  split
  · next i h => exact .inl ⟨i, h, rfl⟩
  · exact .inr rfl
  · exact .inr rfl

/-- Everything a step can select. -/
theorem select_cases (s : State) :
    (s.eng.cur = .read ∧ select s = .run .read s) ∨
    (s.eng.cur = .tare ∧ select s = .run .tare s) ∨
    (s.eng.cur = .none ∧ s.port.ctx = .main ∧
      ((entersHandler s = true ∧ select s = .host (enterHandler s)) ∨
       (entersHandler s = false ∧ s.env.cmds = [] ∧ select s = .host s) ∨
       (entersHandler s = false ∧ ∃ c r, s.env.cmds = c :: r ∧ select s = takeCommand c (withCmds r s)))) ∨
    (s.eng.cur = .none ∧ s.port.ctx = .irq ∧
      ((s.port.todo = [] ∧ select s = .host (leaveHandler s)) ∨
       (∃ r, s.port.todo = .isReady :: r ∧ select s = .run .isReady (withTodo r s)) ∨
       (∃ r, s.port.todo = .readIfReady :: r ∧
         ((s.port.resp = some (okResponse 1#32) ∧ select s = .run .read (withTodo r s)) ∨
          (s.port.resp ≠ some (okResponse 1#32) ∧ select s = .host (withTodo r s)))) ∨
       (∃ c r, s.port.todo = .issue c :: r ∧ select s = takeCommand c (withTodo r s)))) := by
  cases hc : s.eng.cur with
  | read => simp [select, hc]
  | tare => simp [select, hc]
  | none =>
    cases hm : s.port.ctx with
    | main =>
      cases he : entersHandler s with
      | true => simp [select, hc, hm, mainTurn, he]
      | false => cases hq : s.env.cmds <;> simp [select, hc, hm, mainTurn, he, hq]
    | irq =>
      have hs : select s = handlerTurn s := by simp [select, hc, hm]
      rw [hs]
      rcases ht : s.port.todo with _ | ⟨a, r⟩
      · simp [handlerTurn, ht]
      · cases a with
        | isReady => simp [handlerTurn, ht]
        | issue c => simp [handlerTurn, ht]
        | readIfReady =>
          by_cases hr : s.port.resp = some (okResponse 1#32) <;> simp [handlerTurn, ht, hr, boolWord]

/-- Which operation a step runs while one is in progress (R48, R101). -/
theorem select_read {s : State} (h : s.eng.cur = .read) : select s = .run .read s := by
  simp [select, h]

theorem select_tare {s : State} (h : s.eng.cur = .tare) : select s = .run .tare s := by
  simp [select, h]

/-- On a free port the main context's command is taken. -/
theorem select_main {s : State} {c : Command} {r : List Command} (hc : s.eng.cur = .none) (hm : s.port.ctx = .main)
    (he : entersHandler s = false) (hq : s.env.cmds = c :: r) : select s = takeCommand c (withCmds r s) := by
  simp [select, hc, hm, mainTurn, he, hq]

/-- `atPort c s` takes `c` and leaves the commands that waited. -/
theorem select_atPort (c : Command) (s : State) :
    select (atPort c s) = takeCommand c (withCmds s.env.cmds (atPort c s)) := by
  simp [select, atPort, mainTurn, entersHandler]

/-! ### Runs -/

/-- A function that runs like the host's run of a machine is it. -/
theorem run_unique (M : Host.Core) (f : Nat → M.State → Host.Outcome M.State M.Fault M.Refusal)
    (h0 : ∀ s, f 0 s = .next s)
    (h1 : ∀ n s, f (n + 1) s =
      match M.step s with
      | .next t => f n t
      | .fault r => .fault r
      | .refused r => .refused r) (n : Nat) (s : M.State) : M.run n s = f n s := by
  induction n generalizing s with
  | zero => rw [h0, Host.Core.run]
  | succ n ih =>
    rw [h1, Host.Core.run]
    cases M.step s with
    | next t => exact ih t
    | fault r => rfl
    | refused r => rfl

/-- `runFor` is the host's run of this machine. -/
theorem runFor_eq_core (n : Nat) (s : State) : Host.Core.run core n s = runFor n s :=
  run_unique core runFor (fun _ => rfl)
    (fun n (s : State) => by
      have hs : core.step s = step s := rfl
      rw [hs]
      cases h : step s <;> simp only [runFor, h] <;> rfl)
    n s

/-- A run goes on from its first step. -/
theorem runFor_step {s t : State} (h : step s = .next t) (n : Nat) : runFor (n + 1) s = runFor n t := by
  simp [runFor, h]

/-- A run that reaches a state took a first step. -/
theorem runFor_succ_eq_next {n : Nat} {s t : State} (h : runFor (n + 1) s = .next t) :
    ∃ u, step s = .next u ∧ runFor n u = .next t := by
  cases hs : step s with
  | next u => exact ⟨u, rfl, by simpa [runFor, hs] using h⟩
  | fault r => simp [runFor, hs] at h
  | refused r => simp [runFor, hs] at h

/-- Runs compose. -/
theorem runFor_add {m : Nat} {s t : State} (h : runFor m s = .next t) (n : Nat) : runFor (m + n) s = runFor n t := by
  induction m generalizing s with
  | zero => simp only [runFor, Host.Outcome.next.injEq] at h; simp [h]
  | succ m ih =>
    obtain ⟨u, hu, hr⟩ := runFor_succ_eq_next h
    rw [Nat.add_right_comm, runFor_step hu, ih hr]

end Sys2Proof.Machine
end

