-- ==== Sys2Proof/Laws/PerInstr.lean ====
section
/-!
SUPPORT. Per operation, as syntax: its command word fits its row of the opcode table (`30_encoding.md` R55, R70), and the other rows'
patterns do not take it.
-/

namespace Sys2Proof.Laws.TableRow

/-- The `match` and `mask` of each row of R55. -/
def rows : List (BitVec 11 × BitVec 11) :=
  [(0x000#11, 0x700#11), (0x100#11, 0x7FF#11), (0x200#11, 0x7FF#11), (0x300#11, 0x7FF#11), (0x400#11, 0x7FF#11),
   (0x500#11, 0x7FF#11)]

/-- The place of an operation's row in the table. -/
def rowOf : Instr → Nat
  | .new _ => 0
  | .isReady => 1
  | .read => 2
  | .tare => 3
  | .getOffset => 4
  | .getLast => 5

/-- The word of `i` fits row `n`. -/
def fits (i : Instr) (n : Nat) : Bool :=
  match rows[n]? with
  | some (m, k) => encode i &&& k == m
  | none => false

/-- The word of `i` fits its own row and no other. -/
def Statement (i : Instr) : Prop :=
  ∀ n, n < 6 → (fits i n = true ↔ n = rowOf i)

theorem new (arg : BitVec 8) : Statement (.new arg) := by
  unfold Statement; revert arg; decide

theorem isReady : Statement .isReady := by
  unfold Statement; decide

theorem read : Statement .read := by
  unfold Statement; decide

theorem tare : Statement .tare := by
  unfold Statement; decide

theorem getOffset : Statement .getOffset := by
  unfold Statement; decide

theorem getLast : Statement .getLast := by
  unfold Statement; decide

end Sys2Proof.Laws.TableRow
end

