-- ==== Sys2Proof/Tests/Slice0.lean ====
section
/-!
SUPPORT. The model's own tests, and a witness for every statement that has hypotheses. Expected values are the spec's
(`95_test_vectors.md` and the tables of `30_encoding.md`); each test names its source.
-/

namespace Sys2Proof.Tests

open Sys2Proof.Machine

/-! ## Helpers -/

/-- A gap in which nothing happens. -/
def hold : Gap := { levels := [], cmds := [], irqSet := none, handlerFirst := false, handler := none, stall := 0 }

/-- A gap in which the converter puts the data line at `b`. -/
def line (b : Bit) : Gap := { hold with levels := [b] }

/-- What a converter does that delivers `raw` to an exchange whose gate is sampled before the first of these gaps. -/
def frame (raw : Raw) : List Gap :=
  hold :: ((List.range 24).map fun j => [line (bitOf raw (23 - j)), hold, hold]).flatten

/-- A constructed, idle engine with gain field `g`. -/
def built (g : BitVec 2) : State :=
  { State.reset with eng := { State.reset.eng with constructed := true, gain := g } }

/-- `s` with registers `offset` and `lastValue`. -/
def holding (offset lastValue : Word) (s : State) : State :=
  { s with eng := { s.eng with offset := offset, lastValue := lastValue } }

/-- A constructed engine with gain field `g` in progress at position `q` for `c`, with `sh` so far. -/
def midway (c : Cur) (q : Seq) (g : BitVec 2) (sh : Raw) : State :=
  { built g with eng := { (built g).eng with cur := c, seq := q, sck := sckAt q, sh := sh } }

/-- `s` with the data line at `b` and this script of gaps. -/
def scripted (b : Bit) (gaps : List Gap) (s : State) : State :=
  { s with env := { s.env with dout := b, gaps := gaps } }

/-- `s` in the handler, which has `todo` left. -/
def inHandler (todo : List HandlerStep) (s : State) : State :=
  { s with port := { s.port with ctx := .irq, todo := todo } }

/-- `s` with a pending ready interrupt that the host has enabled. -/
def pending (first : Bool) (cmds : List Command) (s : State) : State :=
  { s with env := { s.env with irqPend := true, irqEnabled := true, handlerFirst := first, cmds := cmds } }

/-- The answer is a next state that passes `p`. -/
def next? (a : Answer) (p : State → Bool) : Bool :=
  match a with
  | .next t => p t
  | .fault _ => false
  | .refused _ => false

/-! ## Encodings -/

/-- Well-formedness refuses each kind of NEW that R66 calls no legal command. -/
theorem test_illFormed :
    (Instr.new 0#8).WellFormed = false ∧ (Instr.new 1#8).WellFormed = false ∧ (Instr.new 192#8).WellFormed = false ∧
    (Instr.new 255#8).WellFormed = false ∧ (Instr.new 128#8).WellFormed = true ∧ Instr.read.WellFormed = true := by
  decide

/-- V-ENC-1, and the words of R55 written bit by bit: `op` 10:8, `arg` 7:0. -/
theorem test_decode_new : decode 0b000_10000000#11 = .instr (.new 0x80#8) ∧ decode 0x020#11 = .instr (.new 32#8) := by decide
theorem test_decode_isReady : decode 0b001_00000000#11 = .instr .isReady := by decide
theorem test_decode_read : decode 0b010_00000000#11 = .instr .read := by decide
theorem test_decode_tare : decode 0b011_00000000#11 = .instr .tare := by decide
theorem test_decode_getOffset : decode 0b100_00000000#11 = .instr .getOffset := by decide
theorem test_decode_getLast : decode 0b101_00000000#11 = .instr .getLast := by decide

/-- V-ENC-1, the reserved words. -/
theorem test_decode_reserved :
    decode 0x101#11 = .reservedArg ∧ decode 0x280#11 = .reservedArg ∧ decode 0x5FF#11 = .reservedArg ∧
    decode 0x600#11 = .reservedOp ∧ decode 0x680#11 = .reservedOp ∧ decode 0x7FF#11 = .reservedOp := by decide

/-- The opcode table's numbering: 11 bits in two bytes. -/
theorem test_decodeTableWord :
    decodeTableWord 16 0x300 = some .tare ∧ decodeTableWord 11 0x500 = some .getLast ∧ decodeTableWord 16 0x600 = none ∧
    decodeTableWord 16 0x900 = none := by decide

/-- S2: the gain map, with values that are no gain. -/
theorem test_gainMap :
    gainPulses 128#8 = some 1#2 ∧ gainPulses 64#8 = some 2#2 ∧ gainPulses 32#8 = some 3#2 ∧ gainPulses 16#8 = none ∧
    pulses 1#2 = 25 ∧ pulses 2#2 = 26 ∧ pulses 3#2 = 27 := by decide

/-- V-ENC-3: the samples of 0xABCDEF in order, the first in bit 23. -/
theorem test_assembly :
    ([1#1, 0#1, 1#1, 0#1, 1#1, 0#1, 1#1, 1#1].foldl shiftIn 0#24) = 0x0000AB#24 ∧
    shiftIn 0x55E6F7#24 1#1 = 0xABCDEF#24 := by decide

/-- V-ENC-4. -/
theorem test_sext24 :
    sext24 0x000005#24 = 0x00000005#32 ∧ sext24 0x7FFFFF#24 = 0x007FFFFF#32 ∧ sext24 0x800000#24 = 0xFF800000#32 ∧
    sext24 0xABCDEF#24 = 0xFFABCDEF#32 ∧ sext24 0xFFFFFF#24 = 0xFFFFFFFF#32 := by decide

/-- V-ENC-2. -/
theorem test_responses :
    okResponse 0xFF000001#32 = 0x0FF000001#34 ∧ errResponse .gain = 0x100000000#34 ∧ errResponse .state = 0x200000000#34 ∧
    errResponse .op = 0x300000000#34 := by decide

/-! ## Operations, one step each -/

/-- V-NEW-1 row 3: NEW 64 on a reset engine. -/
theorem test_new_64 :
    next? (exec (.new 64#8) State.reset) (fun t =>
      t.port.resp == some 0#34 && t.eng.constructed && t.eng.gain == 2#2 && t.eng.offset == 0#32 && t.eng.sck == 0#1) = true := by
  decide

/-- V-ENC-1 row 0x0C0, constructed: ERR_STATE comes before ERR_GAIN. -/
theorem test_new_192_built :
    next? (exec (.new 192#8) (built 1#2)) (fun t => t.port.resp == some 0x200000000#34) = true := by decide

/-- V-PE-1. -/
theorem test_isReady :
    next? (exec .isReady (scripted 0#1 [] (built 1#2))) (fun t => t.port.resp == some 1#34) = true ∧
    next? (exec .isReady (scripted 1#1 [] (built 1#2))) (fun t => t.port.resp == some 0#34) = true := by decide

/-- V-PE-2, the row with the largest result, at its commit step. -/
theorem test_read_commit_largest :
    next? (exec .read (holding 0xFF800000#32 0#32 (midway .read .commit 3#2 0x7FFFFF#24))) (fun t =>
      t.port.resp == some 0x000FFFFFF#34 && t.eng.lastValue == 0x00FFFFFF#32 && t.eng.offset == 0xFF800000#32 &&
      t.eng.seq == .idle && t.eng.cur == .none) = true := by decide

/-- V-ENC-5: for gain 32 the train goes on after `LO(26)` and ends after `LO(27)`. -/
theorem test_read_last_pulse :
    next? (exec .read (midway .read (.lo 26) 3#2 0#24)) (fun t => t.eng.seq == .hi 27 && t.eng.sck == 0#1) = true ∧
    next? (exec .read (midway .read (.lo 27) 3#2 0#24)) (fun t => t.eng.seq == .commit) = true := by decide

/-- V-CC-1, the re-tare row: the new offset does not depend on the old one. -/
theorem test_tare_commit :
    next? (exec .tare (holding 1#32 4#32 (midway .tare .commit 1#2 5#24))) (fun t =>
      t.port.resp == some 0#34 && t.eng.offset == 5#32 && t.eng.lastValue == 5#32) = true := by decide

/-- R82: a poll that sees 1 stays, one that sees 0 goes to `HI(1)`. -/
theorem test_tare_poll :
    next? (exec .tare (scripted 1#1 [] (midway .tare .poll 1#2 0#24))) (fun t => t.eng.seq == .poll) = true ∧
    next? (exec .tare (scripted 0#1 [] (midway .tare .poll 1#2 0xFFFFFF#24))) (fun t =>
      t.eng.seq == .hi 1 && t.eng.sh == 0#24) = true := by decide

/-- V-CC-2, the fourth row. -/
theorem test_accessors :
    next? (exec .getOffset (holding 1#32 4#32 (built 1#2))) (fun t => t.port.resp == some 1#34) = true ∧
    next? (exec .getLast (holding 1#32 4#32 (built 1#2))) (fun t => t.port.resp == some 4#34) = true := by decide

/-- V-IRQ-1: the line falls while the interrupt is disabled; and V-IRQ-3: a line that falls twice is one pending entry. -/
theorem test_irq_latch :
    edgeSeen 1#1 [0#1] = true ∧ edgeSeen 0#1 [1#1] = false ∧ edgeSeen 0#1 [1#1, 0#1, 1#1, 0#1] = true ∧ edgeSeen 0#1 [0#1] = false ∧
    (advance (scripted 1#1 [line 0#1] (built 1#2)).env).irqPend = true := by decide

/-- P5 line 3: the handler is entered, the latch is cleared. -/
theorem test_handler_entry :
    next? (step (scripted 0#1 [hold] (pending false [] (built 1#2)))) (fun t =>
      t.port.ctx == .irq && t.env.irqPend == false && t.port.todo == [.isReady, .readIfReady]) = true := by decide

/-- R9, R112: what the interrupt context issues is the host's input: the body chosen in a gap is the one the next entry starts. -/
theorem test_handler_choice :
    (advance (scripted 1#1 [{ hold with handler := some [.issue 0x500#11] }] (built 1#2)).env).handler = [.issue 0x500#11] ∧
    (enterHandler { built 1#2 with env := { (built 1#2).env with handler := [.issue 0x500#11] } }).port.todo = [.issue 0x500#11] := by
  decide

/-- R129: the stalls count, and only those between the first rising edge and the last falling edge. -/
theorem test_stalls :
    stallOver 3 (scripted 0#1 [{ hold with stall := 2 }, hold, { hold with stall := 5 }, { hold with stall := 9 }] (built 1#2)).env = 7 := by
  decide

/-- The first instruction after reset, with the opcode table's word for NEW 128. -/
theorem test_withFetchWord :
    select (State.reset.withFetchWord 16 0x080) = .run (.new 128#8) (withCmds [] (State.reset.withFetchWord 16 0x080)) := by
  decide

/-- P4 line 4: ERR_OP before ERR_STATE. -/
theorem test_reserved_at_port :
    next? (turn (atPort 0x600#11 State.reset)) (fun t => t.port.resp == some 0x300000000#34) = true := by decide

/-! ## Witnesses: states and operands that meet the hypotheses of each statement

The statements that have no hypotheses have none: DecodeInvertsEncode, TableWordsDecode, ExactlyEightLegalCommands,
SignExtensionSubtractsTwoTo24, SignExtensionCopiesBit23. -/

/-- What makes a word reserved, in the statements about it. -/
abbrev Reserved (c : Command) : Prop :=
  opField c = 6#3 ∨ opField c = 7#3 ∨ (opField c ≠ 0#3 ∧ opField c ≠ 6#3 ∧ opField c ≠ 7#3 ∧ argField c ≠ 0#8)

/-- ReservedCommandsAnswerErrOp: each kind of word, at both ends of its range; both contexts, constructed or not. -/
theorem witness_reserved_ops :
    Reserved 0x600#11 ∧ Reserved 0x6FF#11 ∧ Reserved 0x700#11 ∧ Reserved 0x7FF#11 := by decide
theorem witness_reserved_args :
    Reserved 0x101#11 ∧ Reserved 0x5FF#11 ∧ ¬Reserved 0x0FF#11 ∧ ¬Reserved 0x100#11 := by decide
theorem witness_reserved_main (c : Command) :
    Idle (withCmds [c] State.reset) ∧ (withCmds [c] State.reset).port.ctx = .main ∧
    entersHandler (withCmds [c] State.reset) = false ∧ (withCmds [c] State.reset).env.cmds = c :: [] :=
  ⟨⟨rfl, rfl⟩, rfl, rfl, rfl⟩
theorem witness_reserved_handler (c : Command) :
    Idle (inHandler [.issue c] (built 1#2)) ∧ (inHandler [.issue c] (built 1#2)).port.ctx = .irq ∧
    (inHandler [.issue c] (built 1#2)).port.todo = .issue c :: [] :=
  ⟨⟨rfl, rfl⟩, rfl, rfl⟩

/-- ChecksReportTheFirstFailure: a word and a state for each of its six clauses. -/
theorem witness_checks :
    (opField 0x600#11 = 6#3 ∧ opField 0x7FF#11 = 7#3) ∧
    (opField 0x101#11 ≠ 0#3 ∧ opField 0x101#11 ≠ 6#3 ∧ opField 0x101#11 ≠ 7#3 ∧ argField 0x101#11 ≠ 0#8) ∧
    (opField 0x0C0#11 = 0#3 ∧ (built 1#2).eng.constructed = true) ∧
    (opField 0x500#11 ≠ 0#3 ∧ opField 0x500#11 ≠ 6#3 ∧ opField 0x500#11 ≠ 7#3 ∧ argField 0x500#11 = 0#8 ∧
      State.reset.eng.constructed = false) ∧
    (opField 0x0C0#11 = 0#3 ∧ State.reset.eng.constructed = false ∧ argField 0x0C0#11 ≠ 128#8 ∧ argField 0x0C0#11 ≠ 64#8 ∧
      argField 0x0C0#11 ≠ 32#8) ∧
    (decode 0x100#11 = .instr .isReady ∧ (built 1#2).eng.constructed = true ∧ opField 0x100#11 ≠ 0#3) ∧
    (decode 0x020#11 = .instr (.new 32#8) ∧ State.reset.eng.constructed = false ∧ opField 0x020#11 = 0#3 ∧
      argField 0x020#11 = 32#8) := by decide

/-- SampleOfPulseIsItsBit: the first pulse and the last. -/
theorem witness_sampleOfPulse : (1 ≤ 1 ∧ 1 ≤ 24) ∧ (1 ≤ 24 ∧ 24 ≤ 24) := by decide

/-- SubtractionNeverWraps: both ends of the range. -/
theorem witness_rawRange : RawRange 0x007FFFFF#32 ∧ RawRange 0xFF800000#32 ∧ RawRange 0#32 ∧ ¬RawRange 0x00800000#32 := by decide

/-- NewConstructs, BadGainRejected, OthersRejectedBeforeConstruction, InitialisationPoints. -/
theorem witness_initialisation : State.reset.env.irqPend = false ∧ LinesConfigured State.reset := by decide
theorem witness_unbuilt :
    Idle State.reset ∧ State.reset.eng.constructed = false ∧ ((0#8 : BitVec 8) ≠ 128#8 ∧ (0#8 : BitVec 8) ≠ 64#8 ∧ (0#8 : BitVec 8) ≠ 32#8) ∧
    ((255#8 : BitVec 8) ≠ 128#8 ∧ (255#8 : BitVec 8) ≠ 64#8 ∧ (255#8 : BitVec 8) ≠ 32#8) := by decide
theorem witness_others : ∀ arg : BitVec 8, Instr.isReady ≠ .new arg ∧ Instr.read ≠ .new arg ∧ Instr.tare ≠ .new arg ∧
    Instr.getOffset ≠ .new arg ∧ Instr.getLast ≠ .new arg := by simp

/-- SecondNewRejected. -/
theorem witness_secondNew : Idle (built 1#2) ∧ (built 1#2).eng.constructed = true := by decide

/-- ErrorsLeaveNoTrace: one operation for each error that an operation can answer. -/
theorem witness_errorState :
    ∃ t, Idle (built 1#2) ∧ exec (.new 128#8) (built 1#2) = .next t ∧ t.port.resp = some (errResponse .state) :=
  ⟨_, ⟨rfl, rfl⟩, rfl, rfl⟩
theorem witness_errorGain :
    ∃ t, Idle State.reset ∧ exec (.new 3#8) State.reset = .next t ∧ t.port.resp = some (errResponse .gain) :=
  ⟨_, ⟨rfl, rfl⟩, rfl, rfl⟩

/-- ErrorsLeaveNoTrace: a reserved word from either context. -/
theorem witness_errorOp_main :
    Idle (withCmds [0x600#11] State.reset) ∧ (withCmds [0x600#11] State.reset).port.ctx = .main ∧
    entersHandler (withCmds [0x600#11] State.reset) = false ∧ (withCmds [0x600#11] State.reset).env.cmds = 0x600#11 :: [] ∧
    State.reset = withCmds [] (withCmds [0x600#11] State.reset) := by decide
theorem witness_errorOp_handler :
    Idle (inHandler [.issue 0x101#11] (built 1#2)) ∧ (inHandler [.issue 0x101#11] (built 1#2)).port.ctx = .irq ∧
    (inHandler [.issue 0x101#11] (built 1#2)).port.todo = .issue 0x101#11 :: [] ∧
    inHandler [] (built 1#2) = withTodo [] (inHandler [.issue 0x101#11] (built 1#2)) := by decide
theorem witness_noOperation (i : Instr) : decode 0x600#11 ≠ .instr i ∧ decode 0x101#11 ≠ .instr i := by
  rw [show decode 0x600#11 = .reservedOp by decide, show decode 0x101#11 = .reservedArg by decide]
  simp

/-- IsReadyAnswersTheLevel, GetOffsetAnswersOffset, GetLastAnswersLastValue, TareStartsWaiting: both levels. -/
theorem witness_working :
    Working (scripted 0#1 [] (built 1#2)) ∧ LinesConfigured (scripted 0#1 [] (built 1#2)) ∧ sample (scripted 0#1 [] (built 1#2)) = 0#1 ∧
    Working (scripted 1#1 [] (built 3#2)) ∧ sample (scripted 1#1 [] (built 3#2)) = 1#1 := by decide

/-- ExchangeLinesOfThePulse: for both operations, and each clause at both ends of its range. -/
theorem witness_exchangeLines :
    ((midway .read (.hi 1) 1#2 0#24).eng.cur = .read ∧ (midway .read (.hi 1) 1#2 0#24).eng.seq = .hi 1) ∧
    ((midway .tare (.hi 27) 3#2 0#24).eng.cur = .tare ∧ (midway .tare (.hi 27) 3#2 0#24).eng.seq = .hi 27) ∧
    ((midway .read (.smp 1) 1#2 0#24).eng.seq = .smp 1 ∧ 1 ≤ 24) ∧
    ((midway .read (.smp 24) 1#2 0#24).eng.seq = .smp 24 ∧ 24 ≤ 24) ∧
    ((midway .read (.smp 25) 1#2 0#24).eng.seq = .smp 25 ∧ 24 < 25) ∧
    ((midway .tare (.lo 24) 1#2 0#24).eng.seq = .lo 24 ∧ 24 < 24 + (midway .tare (.lo 24) 1#2 0#24).eng.gain.toNat) ∧
    ((midway .tare (.lo 25) 1#2 0#24).eng.seq = .lo 25 ∧ 24 + (midway .tare (.lo 25) 1#2 0#24).eng.gain.toNat ≤ 25) ∧
    ((midway .tare (.lo 27) 3#2 0#24).eng.seq = .lo 27 ∧ 24 + (midway .tare (.lo 27) 3#2 0#24).eng.gain.toNat ≤ 27) := by
  decide

/-- ExchangeTraceOnTheLines and EveryExchangeDeliversOneRaw (with `sh` 0, and an `env` before). -/
theorem witness_trace :
    ((midway .read (.hi 1) 1#2 0#24).eng.cur ≠ .none ∧ (midway .read (.hi 1) 1#2 0#24).eng.seq = .hi 1) ∧
    ((midway .tare (.hi 1) 3#2 0#24).eng.cur ≠ .none ∧ (midway .tare (.hi 1) 3#2 0#24).eng.seq = .hi 1) ∧
    (midway .tare (.hi 1) 3#2 0#24).eng.sh = 0#24 := by decide
theorem witness_exchange (env : Env) (h : env.configured = true) :
    LinesConfigured { midway .read (.hi 1) 1#2 0#24 with env := advance env } := h

/-- HoldsAndDrivesOnlyInPulses: a hold and a drive in either half, and the drive of a NEW. -/
theorem witness_holds :
    LineAction.delay ∈ stepActions (midway .read (.hi 1) 1#2 0#24) ∧ LineAction.delay ∈ stepActions (midway .tare (.lo 27) 3#2 0#24) ∧
    LineAction.drive 1#1 ∈ stepActions (midway .read (.hi 1) 1#2 0#24) ∧
    LineAction.drive 0#1 ∈ stepActions (midway .tare (.lo 27) 3#2 0#24) ∧
    LineAction.drive 0#1 ∈ stepActions (atPort 0x080#11 State.reset) := by decide

/-- ReadCommits and TareCommits. -/
theorem witness_commits :
    (midway .read .commit 1#2 5#24).eng.cur = .read ∧ (midway .read .commit 1#2 5#24).eng.seq = .commit ∧
    (midway .tare .commit 1#2 5#24).eng.cur = .tare ∧ (midway .tare .commit 1#2 5#24).eng.seq = .commit := by decide

/-- `frame` delivers the sample, for the smallest, the largest and a mixed sample. -/
theorem witness_delivers_min : Delivers 0x800000#24 (scripted 0#1 (frame 0x800000#24) (built 1#2)).env := by decide
theorem witness_delivers_max : Delivers 0x7FFFFF#24 (scripted 1#1 (frame 0x7FFFFF#24) (built 1#2)).env := by decide

/-- ReadRunsToItsResponse. -/
theorem witness_readRuns :
    Working (scripted 0#1 (frame 0xABCDEF#24) (built 3#2)) ∧ LinesConfigured (scripted 0#1 (frame 0xABCDEF#24) (built 3#2)) ∧
    (scripted 0#1 (frame 0xABCDEF#24) (built 3#2)).env.dout = 0#1 ∧
    Delivers 0xABCDEF#24 (scripted 0#1 (frame 0xABCDEF#24) (built 3#2)).env := by decide

/-- NotReadyReadIsMarked. -/
theorem witness_notReady :
    Working (scripted 1#1 (frame 0xFFFFFF#24) (built 1#2)) ∧ LinesConfigured (scripted 1#1 (frame 0xFFFFFF#24) (built 1#2)) ∧
    (scripted 1#1 (frame 0xFFFFFF#24) (built 1#2)).env.dout = 1#1 ∧
    Delivers 0xFFFFFF#24 (scripted 1#1 (frame 0xFFFFFF#24) (built 1#2)).env := by decide

/-- ReadFrame, TareFrame, AccessorsFrame, NewFrame: each has a next state, at a start, at a commit step and between. -/
theorem witness_readFrame :
    (∃ t, exec .read (scripted 0#1 [] (built 1#2)) = .next t) ∧ (∃ t, exec .read (midway .read (.smp 24) 1#2 0#24) = .next t) ∧
    (∃ t, exec .read (midway .read .commit 1#2 0#24) = .next t) :=
  ⟨⟨_, rfl⟩, ⟨_, rfl⟩, ⟨_, rfl⟩⟩
theorem witness_tareFrame :
    (∃ t, exec .tare (built 1#2) = .next t) ∧ (∃ t, exec .tare (midway .tare .poll 1#2 0#24) = .next t) ∧
    (∃ t, exec .tare (midway .tare .commit 1#2 0#24) = .next t) :=
  ⟨⟨_, rfl⟩, ⟨_, rfl⟩, ⟨_, rfl⟩⟩
theorem witness_accessorsFrame :
    (∃ t, exec .isReady (built 1#2) = .next t) ∧ (∃ t, exec .getOffset (built 1#2) = .next t) ∧
    (∃ t, exec .getLast (built 1#2) = .next t) :=
  ⟨⟨_, rfl⟩, ⟨_, rfl⟩, ⟨_, rfl⟩⟩
theorem witness_newFrame : ∃ t, exec (.new 128#8) State.reset = .next t := ⟨_, rfl⟩

/-- PollStaysOrMovesOn: both samples. -/
theorem witness_poll :
    (scripted 0#1 [] (midway .tare .poll 1#2 0#24)).eng.cur = .tare ∧ (scripted 0#1 [] (midway .tare .poll 1#2 0#24)).eng.seq = .poll ∧
    sample (scripted 0#1 [] (midway .tare .poll 1#2 0#24)) = 0#1 ∧ sample (scripted 1#1 [] (midway .tare .poll 1#2 0#24)) = 1#1 := by
  decide

/-- A converter that lets a TARE poll `n` times high, and then delivers `raw`; the line is high before. -/
def waits (n : Nat) (raw : Raw) : List Gap :=
  List.replicate n hold ++ line 0#1 :: frame raw

/-- TareRunsToItsResponse and, with what comes before the low level, TareWaitsWithoutBound: no poll that sees high, and two. -/
theorem witness_tareRuns_0 :
    Working (scripted 1#1 (waits 0 1#24) (built 1#2)) ∧ LinesConfigured (scripted 1#1 (waits 0 1#24) (built 1#2)) ∧
    levelAfter 1 (scripted 1#1 (waits 0 1#24) (built 1#2)).env = 0#1 ∧
    Delivers 1#24 (after 1 (scripted 1#1 (waits 0 1#24) (built 1#2)).env) := by decide
theorem witness_tareRuns_2 :
    Working (scripted 1#1 (waits 2 0x800000#24) (built 3#2)) ∧ LinesConfigured (scripted 1#1 (waits 2 0x800000#24) (built 3#2)) ∧
    (∀ j, j < 2 → levelAfter (j + 1) (scripted 1#1 (waits 2 0x800000#24) (built 3#2)).env = 1#1) ∧
    levelAfter 3 (scripted 1#1 (waits 2 0x800000#24) (built 3#2)).env = 0#1 ∧
    Delivers 0x800000#24 (after 3 (scripted 1#1 (waits 2 0x800000#24) (built 3#2)).env) := by decide

/-- TareThenReadCancels: V-CC-3; the TARE's part is `witness_tareRuns_2`, this is the READ's. -/
theorem witness_tareThenRead :
    (scripted 0#1 (frame 0x7FFFFF#24) State.reset).env.configured = true ∧ (scripted 0#1 (frame 0x7FFFFF#24) State.reset).env.dout = 0#1 ∧
    Delivers 0x7FFFFF#24 (scripted 0#1 (frame 0x7FFFFF#24) State.reset).env := by decide

/-- A state that meets the invariant: reset; idle and built; each in-progress state used below. -/
theorem witness_ok_reset : StateOk State.reset := ⟨by decide, by decide, by decide, by decide, by decide, by decide⟩
theorem witness_ok_built : StateOk (built 3#2) := ⟨by decide, by decide, by decide, by decide, by decide, by decide⟩
theorem witness_ok_read : StateOk (midway .read .commit 1#2 5#24) :=
  ⟨by decide, by decide, by decide, by decide, by decide, by decide⟩
theorem witness_ok_tare : StateOk (midway .tare .commit 1#2 5#24) :=
  ⟨by decide, by decide, by decide, by decide, by decide, by decide⟩
theorem witness_ok_pulse : StateOk (midway .tare (.lo 27) 3#2 5#24) :=
  ⟨by decide, by decide, by decide, by decide, by decide, by decide⟩
theorem witness_ok_new : StateOk (atPort 0x080#11 State.reset) :=
  ⟨by decide, by decide, by decide, by decide, by decide, by decide⟩

/-- RegistersChangeOnlyAtCommit, SequencerFollowsItsPath, StepKeepsTheInvariant, ClockLineFollowsTheDrives: steps from those states. -/
theorem witness_steps :
    (∃ t, step (midway .read .commit 1#2 5#24) = .next t) ∧ (∃ t, step (midway .tare .commit 1#2 5#24) = .next t) ∧
    (∃ t, step (midway .tare (.lo 27) 3#2 5#24) = .next t) ∧ (∃ t, step (atPort 0x080#11 State.reset) = .next t) ∧
    (∃ t, step State.reset = .next t) :=
  ⟨⟨_, rfl⟩, ⟨_, rfl⟩, ⟨_, rfl⟩, ⟨_, rfl⟩, ⟨_, rfl⟩⟩

/-- RegistersStableBetweenCommits and GainFixedForLife: a run of one step. -/
theorem witness_stable :
    StateOk (built 3#2) ∧ (built 3#2).eng.constructed = true ∧
    (∀ k u, k < 1 → runFor k (built 3#2) = .next u → u.eng.seq ≠ .commit) ∧ ∃ t, runFor 1 (built 3#2) = .next t := by
  refine ⟨witness_ok_built, rfl, ?_, ⟨_, rfl⟩⟩
  intro k u hk h
  obtain rfl : k = 0 := by omega
  cases h
  decide

/-- OnlySamplesReadTheLine and ContextsAreAlike. -/
theorem witness_noSample :
    LineAction.sample ∉ actionsOf .getLast (built 1#2) ∧ LineAction.sample ∉ actionsOf .read (midway .read (.smp 25) 1#2 0#24) ∧
    (∃ t, exec .getLast (built 1#2) = .next t) ∧ ∃ t, exec .read (midway .read (.smp 25) 1#2 0#24) = .next t :=
  ⟨by decide, by decide, ⟨_, rfl⟩, ⟨_, rfl⟩⟩

/-- OthersWaitWhileBusy and OperationInProgressRunsAlone. -/
theorem witness_busy :
    (midway .read (.smp 24) 1#2 0#24).eng.cur = .read ∧ Instr.getLast ≠ .read ∧ (midway .tare .poll 1#2 0#24).eng.cur = .tare ∧
    Instr.read ≠ .tare ∧ (midway .tare .poll 1#2 0#24).eng.cur ≠ .none := by decide
theorem witness_alone : ∃ t, step (midway .tare .poll 1#2 0#24) = .next t := ⟨_, rfl⟩

/-- StepRunsTheDecodedOperation. -/
theorem witness_stepRuns :
    Idle (withCmds [0x400#11, 0x500#11] (built 1#2)) ∧ (withCmds [0x400#11, 0x500#11] (built 1#2)).port.ctx = .main ∧
    entersHandler (withCmds [0x400#11, 0x500#11] (built 1#2)) = false ∧
    (withCmds [0x400#11, 0x500#11] (built 1#2)).env.cmds = 0x400#11 :: [0x500#11] ∧ decode 0x400#11 = .instr .getOffset := by decide

theorem witness_stepRuns_handler :
    Idle (inHandler [.isReady, .readIfReady] (built 1#2)) ∧ (inHandler [.isReady, .readIfReady] (built 1#2)).port.ctx = .irq ∧
    (inHandler [.isReady, .readIfReady] (built 1#2)).port.todo = .isReady :: [.readIfReady] ∧
    (inHandler [.readIfReady] (withResp (some 1#34) (built 1#2))).port.todo = .readIfReady :: [] ∧
    (inHandler [.readIfReady] (withResp (some 1#34) (built 1#2))).port.resp = some 1#34 ∧
    (inHandler [.readIfReady] (withResp (some 0#34) (built 1#2))).port.resp ≠ some 1#34 ∧
    (inHandler [.issue 0x500#11] (built 1#2)).port.todo = .issue 0x500#11 :: [] ∧ decode 0x500#11 = .instr .getLast := by decide

/-- LatchHoldsTheFallingEdge: the latch held, and the edge, an operation in progress. -/
theorem witness_latch :
    (∃ t, step (pending false [] (midway .read (.smp 1) 1#2 0#24)) = .next t) ∧
    ∃ t, step (scripted 1#1 [line 0#1] (midway .read (.smp 1) 1#2 0#24)) = .next t ∧
      (1#1 : Bit) :: (nextGap (scripted 1#1 [line 0#1] (midway .read (.smp 1) 1#2 0#24)).env).levels = [] ++ 1#1 :: 0#1 :: [] :=
  ⟨⟨_, rfl⟩, ⟨_, rfl, rfl⟩⟩

/-- HandlerEntryChangesOnlyTheContext and HandlerEnteredOnlyWhenAllowed. -/
theorem witness_entry :
    Idle (pending false [] (built 1#2)) ∧ (pending false [] (built 1#2)).port.ctx = .main ∧
    (pending false [] (built 1#2)).env.irqPend = true ∧ (pending false [] (built 1#2)).env.irqEnabled = true ∧
    (pending false [] (built 1#2)).env.cmds = [] := by decide
theorem witness_entered :
    (pending false [] (built 1#2)).port.ctx = .main ∧ ∃ t, step (pending false [] (built 1#2)) = .next t ∧ t.port.ctx = .irq :=
  ⟨rfl, ⟨_, rfl, rfl⟩⟩

/-- EitherMayGoFirst: both orders; the reserved word is `witness_noOperation`'s. -/
theorem witness_either (first : Bool) :
    Idle (pending first [0x500#11] (built 1#2)) ∧ (pending first [0x500#11] (built 1#2)).port.ctx = .main ∧
    (pending first [0x500#11] (built 1#2)).env.irqPend = true ∧ (pending first [0x500#11] (built 1#2)).env.irqEnabled = true ∧
    (pending first [0x500#11] (built 1#2)).env.cmds = 0x500#11 :: [] ∧ decode 0x500#11 = .instr .getLast ∧
    (pending first [0x500#11] (built 1#2)).env.handlerFirst = first ∧ (pending first [0x600#11] (built 1#2)).env.cmds = 0x600#11 :: [] :=
  ⟨⟨rfl, rfl⟩, rfl, rfl, rfl, rfl, rfl, rfl, rfl⟩

/-- ServiceNotReadyReadsNothing: the line is high again at the handler's sample. -/
theorem witness_serviceNotReady :
    Working (scripted 0#1 [line 1#1] (pending false [] (built 1#2))) ∧ LinesConfigured (scripted 0#1 [line 1#1] (pending false [] (built 1#2))) ∧
    (scripted 0#1 [line 1#1] (pending false [] (built 1#2))).port.ctx = .main ∧
    entersHandler (scripted 0#1 [line 1#1] (pending false [] (built 1#2))) = true ∧
    (scripted 0#1 [line 1#1] (pending false [] (built 1#2))).env.handler = [.isReady, .readIfReady] ∧
    levelAfter 1 { (scripted 0#1 [line 1#1] (pending false [] (built 1#2))).env with irqPend := false } = 1#1 := by decide

/-- ServiceReadyReadsOnce: V-IRQ-2. -/
theorem witness_serviceReady :
    Working (scripted 0#1 (hold :: hold :: frame 5#24) (pending false [] (built 1#2))) ∧
    LinesConfigured (scripted 0#1 (hold :: hold :: frame 5#24) (pending false [] (built 1#2))) ∧
    entersHandler (scripted 0#1 (hold :: hold :: frame 5#24) (pending false [] (built 1#2))) = true ∧
    levelAfter 1 { (scripted 0#1 (hold :: hold :: frame 5#24) (pending false [] (built 1#2))).env with irqPend := false } = 0#1 ∧
    levelAfter 2 { (scripted 0#1 (hold :: hold :: frame 5#24) (pending false [] (built 1#2))).env with irqPend := false } = 0#1 ∧
    Delivers 5#24
      (after 2 { (scripted 0#1 (hold :: hold :: frame 5#24) (pending false [] (built 1#2))).env with irqPend := false }) := by decide

/-- HandlerTareIsMarkedAndRuns: an operation the handler must not issue, and one it may. -/
theorem witness_handlerTare :
    Idle (inHandler [.issue 0x300#11] (built 1#2)) ∧ (inHandler [.issue 0x300#11] (built 1#2)).port.ctx = .irq ∧
    (inHandler [.issue 0x300#11] (built 1#2)).port.todo = .issue 0x300#11 :: [] ∧ decode 0x300#11 = .instr .tare ∧
    decode 0x500#11 = .instr .getLast := by decide

/-- ContractBrokenOnlyByTheHost: a READ with the line high, whichever of its outcomes it takes; and a TARE from the handler. -/
theorem witness_breaks_read :
    WithinContract (atPort 0x200#11 (built 1#2)) ∧ ∃ t, step (atPort 0x200#11 (built 1#2)) = .next t ∧ ¬WithinContract t := by
  refine ⟨by decide, ?_⟩
  have hw : Working (withCmds [] (atPort 0x200#11 (built 1#2))) := by decide
  have hs : step (atPort 0x200#11 (built 1#2)) = thenGap (execRead (withCmds [] (atPort 0x200#11 (built 1#2)))) := rfl
  have hx : execRead (withCmds [] (atPort 0x200#11 (built 1#2))) = readNotReady (withCmds [] (atPort 0x200#11 (built 1#2))) := by
    simp only [execRead, hw.1.1, whenBuilt_working hw]
    rfl
  rw [hs, hx]
  unfold readNotReady
  split
  · exact ⟨_, rfl, by rintro ⟨h, -⟩; cases h⟩
  · exact ⟨_, rfl, by rintro ⟨h, -⟩; cases h⟩
theorem witness_breaks_handler :
    WithinContract (inHandler [.issue 0x300#11] (built 1#2)) ∧
    ∃ t, step (inHandler [.issue 0x300#11] (built 1#2)) = .next t ∧ ¬WithinContract t :=
  ⟨by decide, ⟨_, rfl, by rintro ⟨-, h⟩; cases h⟩⟩

/-- LaunchPremiseIsKept: a run of one step, the premise met, and not. -/
theorem witness_launch :
    (∃ t, runFor 1 (built 1#2) = .next t) ∧ ∃ t, runFor 1 { built 1#2 with env := { (built 1#2).env with configured := false } } = .next t :=
  ⟨⟨_, rfl⟩, ⟨_, rfl⟩⟩

/-- MarksAreNeverCleared: both marks set. -/
theorem witness_marks :
    ∃ t, runFor 1 { built 1#2 with port := { State.reset.port with notReadyRead := true, irqBreach := true } } = .next t := ⟨_, rfl⟩

/-- ResetLeavesAnIdleEngine and InvariantAfterReset: both kinds of reset, the second from the middle of an exchange. -/
theorem witness_reset : (∃ u, hardwareReset (midway .read (.smp 24) 1#2 0#24) = hardwareReset u) ∧ State.reset = State.reset :=
  ⟨⟨_, rfl⟩, rfl⟩

end Sys2Proof.Tests
end

/-!
PROOFS. Sign extension (R8, R61): the arithmetic form is the library's, and with it the range of a raw sample's value (R78).
-/

namespace Sys2Proof.Machine

/-- The bit that R61 tests is the sign bit of the field. -/
theorem getLsbD_23_eq_msb (sh : Raw) : sh.getLsbD 23 = sh.msb :=
  (BitVec.msb_eq_getLsbD_last sh).symm

/-- To subtract 2^24 when bit 23 is set is to copy that bit into the eight bits above it. -/
theorem sext24_eq_signExtend (sh : Raw) : sext24 sh = sh.signExtend 32 := by
  apply BitVec.eq_of_toNat_eq
  have hsh := sh.isLt
  rw [BitVec.toNat_signExtend, sext24, getLsbD_23_eq_msb]
  cases hm : sh.msb with
  | false => simp
  | true =>
    have hbig : 2 ^ 23 ≤ sh.toNat := by simpa [hm] using BitVec.msb_eq_decide sh
    simp only [if_true, BitVec.toNat_sub, BitVec.toNat_setWidth, BitVec.toNat_ofNat]
    omega

/-- A sign-extended field is a raw sample's value. -/
theorem rawRange_sext24 (sh : Raw) : RawRange (sext24 sh) := by
  rw [sext24_eq_signExtend, RawRange, BitVec.toInt_signExtend_of_le (by decide)]
  have hlo := BitVec.le_toInt sh
  have hhi := BitVec.toInt_lt (x := sh)
  omega

/-- Settles O8: both forms are the integer's value in 32 bits, by cases on the sign bit. -/
theorem signExtensionCopiesBit23 : Obligations.SignExtensionCopiesBit23 :=
  sext24_eq_signExtend

end Sys2Proof.Machine

/-!
PROOFS. The invariant `StateOk`, kept by every step, and that no step stops in a state that meets it (R11, R99). The part of the
invariant that speaks of the engine is `EngineOk`; a step is taken apart into what it selects, what the meaning does, and the gap.
-/

namespace Sys2Proof.Machine

/-! ### The engine's part of the invariant -/

/-- What `StateOk` says of the engine. -/
structure EngineOk (e : Engine) : Prop where
  seq : seqOk e = true
  built : e.constructed = false → e.seq = .idle
  gain : e.constructed = true → e.gain ≠ 0#2
  sck : e.constructed = true → e.sck = sckAt e.seq
  offset : e.constructed = true → RawRange e.offset

theorem stateOk_iff (s : State) : StateOk s ↔ EngineOk s.eng ∧ (s.port.ctx = .main → s.port.todo = []) :=
  ⟨fun ⟨hq, hb, hg, hs, ho, hc⟩ => ⟨⟨hq, hb, hg, hs, ho⟩, hc⟩, fun ⟨⟨hq, hb, hg, hs, ho⟩, hc⟩ => ⟨hq, hb, hg, hs, ho, hc⟩⟩

theorem StateOk.engine {s : State} (h : StateOk s) : EngineOk s.eng :=
  ((stateOk_iff s).1 h).1

/-- The invariant asks nothing of the outside, and of the port only that a host in its main context has no handler's acts left. -/
theorem StateOk.of_eng_eq {s t : State} (h : StateOk s) (he : t.eng = s.eng)
    (hc : t.port.ctx = .main → t.port.todo = []) : StateOk t :=
  (stateOk_iff t).2 ⟨he ▸ h.engine, hc⟩

/-- Of a constructed engine the invariant says four things, under no condition. -/
theorem EngineOk.of_constructed {e : Engine} (hc : e.constructed = true) (hq : seqOk e = true) (hg : e.gain ≠ 0#2)
    (hs : e.sck = sckAt e.seq) (ho : RawRange e.offset) : EngineOk e :=
  ⟨hq, by simp [hc], fun _ => hg, fun _ => hs, fun _ => ho⟩

theorem EngineOk.parts {e : Engine} (h : EngineOk e) (hc : e.constructed = true) :
    seqOk e = true ∧ e.gain ≠ 0#2 ∧ e.sck = sckAt e.seq ∧ RawRange e.offset :=
  ⟨h.seq, h.gain hc, h.sck hc, h.offset hc⟩

/-- Only a constructed engine leaves `IDLE` (R23). -/
theorem EngineOk.constructed {e : Engine} (h : EngineOk e) (hq : e.seq ≠ .idle) : e.constructed = true := by
  cases hc : e.constructed with
  | true => rfl
  | false => exact absurd (h.built hc) hq

/-! ### The sequencer's positions (R21) -/

/-- An engine that no operation owns is idle. -/
theorem seq_idle_of_cur_none {e : Engine} (h : seqOk e = true) (hc : e.cur = .none) : e.seq = .idle := by
  cases hq : e.seq <;> simp [seqOk, hq, hc] at h ⊢

/-- An engine that an operation owns is not idle. -/
theorem seq_ne_idle_of_cur {e : Engine} (h : seqOk e = true) (hc : e.cur ≠ .none) : e.seq ≠ .idle := by
  intro hq
  simp [seqOk, hq, hc] at h

/-- Only a TARE polls. -/
theorem cur_tare_of_seq_poll {e : Engine} (h : seqOk e = true) (hq : e.seq = .poll) : e.cur = .tare := by
  simpa [seqOk, hq] using h

/-- A train has a first pulse. -/
theorem one_le_pulses (gain : BitVec 2) : 1 ≤ pulses gain :=
  Nat.le_add_right_of_le (by decide)

/-- The clock is low when the next pulse is due, and when none is. -/
@[simp] theorem sckAt_afterLow (gain : BitVec 2) (k : Nat) : sckAt (afterLow gain k) = 0#1 := by
  unfold afterLow
  split <;> rfl

/-- What follows a pulse is a pulse of the train, or the commit step. -/
theorem seqOk_afterLow {e : Engine} {k : Nat} (hc : e.cur ≠ .none) (he : e.seq = afterLow e.gain k) :
    seqOk e = true := by
  unfold afterLow at he
  split at he
  · next hk => simpa [seqOk, he, hc] using hk
  · simp [seqOk, he, hc]

/-- A line of the exchange is due at every position but three. -/
theorem exchangeLine_eq_some {e : Engine} (b : Bit) (hi : e.seq ≠ .idle) (hp : e.seq ≠ .poll) (hm : e.seq ≠ .commit) :
    ∃ e', exchangeLine b e = some e' := by
  cases hq : e.seq with
  | hi k => simp [exchangeLine, hq]
  | smp k => simp [exchangeLine, hq]
  | lo k => simp [exchangeLine, hq]
  | idle => exact absurd hq hi
  | poll => exact absurd hq hp
  | commit => exact absurd hq hm

/-! ### What the engine does keeps its part of the invariant -/

/-- Each line of the exchange moves to the next position of the same train and drives the clock to that position's level. -/
theorem EngineOk.exchangeLine {b : Bit} {e e' : Engine} (h : EngineOk e) (hl : exchangeLine b e = some e') : EngineOk e' := by
  have hc : e.constructed = true := h.constructed fun hi => by simp [Machine.exchangeLine, hi] at hl
  obtain ⟨hq, hg, hs, ho⟩ := h.parts hc
  rcases exchangeLine_cases hl with ⟨k, hk, rfl⟩ | ⟨k, hk, _, rfl⟩ | ⟨k, hk, _, rfl⟩ | ⟨k, hk, rfl⟩
  · exact .of_constructed hc (by simpa [seqOk, hk] using hq) hg rfl ho
  · rw [hk] at hs
    exact .of_constructed hc (by simpa [seqOk, hk] using hq) hg hs ho
  · rw [hk] at hs
    exact .of_constructed hc (by simpa [seqOk, hk] using hq) hg hs ho
  · have hcur : e.cur ≠ .none := by
      intro h0
      simp [seqOk, hk, h0] at hq
    exact .of_constructed hc (seqOk_afterLow hcur rfl) hg (by simp) ho

/-- An exchange begins where the clock is low: at `IDLE` or after a poll. -/
theorem EngineOk.beginExchange {op : Cur} {s : State} (h : EngineOk s.eng) (hc : s.eng.constructed = true)
    (hop : op ≠ .none) (hlow : sckAt s.eng.seq = 0#1) : EngineOk (beginExchange op s).eng := by
  obtain ⟨-, hg, hs, ho⟩ := h.parts hc
  exact .of_constructed hc (by simp [seqOk, hop, one_le_pulses]) hg (hs.trans hlow) ho

theorem EngineOk.beginTare {s : State} (h : EngineOk s.eng) (hw : Working s) : EngineOk (beginTare s).eng := by
  obtain ⟨⟨-, hi⟩, hc⟩ := hw
  obtain ⟨-, hg, hs, ho⟩ := h.parts hc
  rw [hi] at hs
  exact .of_constructed hc rfl hg hs ho

/-- A commit step may store what it likes in `last_value`, and a raw sample's value in `offset`. -/
theorem EngineOk.commit {e : Engine} (h : EngineOk e) (hm : e.seq = .commit) (v : Word) {o : Word}
    (ho : RawRange o) : EngineOk { e with lastValue := v, offset := o, cur := .none, seq := .idle } := by
  have hc := h.constructed (by simp [hm])
  obtain ⟨-, hg, hs, -⟩ := h.parts hc
  rw [hm] at hs
  exact .of_constructed hc rfl hg hs ho

/-- No row of the gain table has the value 0 (R18, R62). -/
theorem gainPulses_ne_zero {arg : BitVec 8} {g : BitVec 2} (h : gainPulses arg = some g) : g ≠ 0#2 := by
  rintro rfl
  revert h arg
  decide

theorem rawRange_offsetInit : RawRange offsetInit := by decide

/-- Every meaning keeps the engine's part of the invariant. -/
theorem exec_keeps_engineOk {i : Instr} {s t : State} (h : EngineOk s.eng) (hx : exec i s = .next t) : EngineOk t.eng := by
  cases i with
  | new a =>
    rcases execNew_cases hx with ⟨_, _, rfl⟩ | ⟨_, _, _, rfl⟩ | ⟨g, _, _, hg, rfl⟩ | ⟨_, rfl⟩
    · exact h
    · exact h
    · exact .of_constructed rfl rfl (gainPulses_ne_zero hg) rfl rawRange_offsetInit
    · exact h
  | isReady => rcases answer_cases hx with ⟨_, _, rfl⟩ | ⟨_, rfl⟩ <;> exact h
  | getOffset => rcases answer_cases hx with ⟨_, _, rfl⟩ | ⟨_, rfl⟩ <;> exact h
  | getLast => rcases answer_cases hx with ⟨_, _, rfl⟩ | ⟨_, rfl⟩ <;> exact h
  | read =>
    rcases execRead_cases hx with
      ⟨_, hm, rfl⟩ | ⟨_, _, hl, rfl⟩ | ⟨⟨⟨_, hi⟩, hc⟩, _, rfl⟩ | ⟨⟨⟨_, hi⟩, hc⟩, _, rfl | ⟨_, rfl⟩⟩ | ⟨_, _, rfl⟩ | ⟨_, rfl⟩
    · exact h.commit hm _ (h.offset (h.constructed (by simp [hm])))
    · exact h.exchangeLine hl
    · exact h.beginExchange hc (by simp) (by simp [hi, sckAt])
    · exact EngineOk.beginExchange (s := { s with port := _ }) h hc (by simp) (by simp [hi, sckAt])
    · exact h
    · exact h
    · exact h
  | tare =>
    rcases execTare_cases hx with
      ⟨_, hm, rfl⟩ | ⟨_, hp, _, rfl⟩ | ⟨_, _, _, rfl⟩ | ⟨_, _, hl, rfl⟩ | ⟨hw, rfl⟩ | ⟨_, _, rfl⟩ | ⟨_, rfl⟩
    · exact h.commit hm _ (rawRange_sext24 _)
    · exact h.beginExchange (h.constructed (by simp [hp])) (by simp) (by simp [hp, sckAt])
    · exact h
    · exact h.exchangeLine hl
    · exact h.beginTare hw
    · exact h
    · exact h

theorem exec_keeps_stateOk {i : Instr} {s t : State} (h : StateOk s) (hx : exec i s = .next t) : StateOk t := by
  obtain ⟨-, hctx, htodo, -, -⟩ := exec_outside hx
  exact (stateOk_iff t).2 ⟨exec_keeps_engineOk h.engine hx, by rw [hctx, htodo]; exact h.ctx⟩

/-! ### Every meaning goes on where the sequencer stands in its place -/

theorem accept_goes_on {s : State} {b : Answer} (h : seqOk s.eng = true) (hb : ∃ t, b = .next t) :
    ∃ t, accept s b = .next t := by
  by_cases hc : s.eng.cur = .none
  · rw [accept_idle ⟨hc, seq_idle_of_cur_none h hc⟩]
    exact hb
  · exact ⟨s, accept_busy hc b⟩

theorem whenBuilt_goes_on {s : State} {b : Answer} (h : seqOk s.eng = true) (hb : ∃ t, b = .next t) :
    ∃ t, whenBuilt s b = .next t := by
  refine accept_goes_on h ?_
  split
  · exact hb
  · exact ⟨_, rfl⟩

/-- An operation in progress that neither polls nor commits has a line of its exchange to run. -/
theorem exchangeOn_goes_on {s : State} (h : seqOk s.eng = true) (hc : s.eng.cur ≠ .none) (hp : s.eng.seq ≠ .poll)
    (hm : s.eng.seq ≠ .commit) : ∃ t, exchangeOn s = .next t := by
  obtain ⟨e, he⟩ := exchangeLine_eq_some (sample s) (seq_ne_idle_of_cur h hc) hp hm
  exact ⟨{ s with eng := e }, by simp [exchangeOn, he]⟩

/-- Both outcomes of a not-ready READ go on (R74). -/
theorem readNotReady_goes_on (s : State) : ∃ t, readNotReady s = .next t := by
  unfold readNotReady
  split <;> exact ⟨_, rfl⟩

theorem pollOnce_goes_on (s : State) : ∃ t, pollOnce s = .next t := by
  unfold pollOnce
  split <;> exact ⟨_, rfl⟩

theorem execNew_goes_on (arg : BitVec 8) {s : State} (h : seqOk s.eng = true) : ∃ t, execNew arg s = .next t := by
  refine accept_goes_on h ?_
  split
  · exact ⟨_, rfl⟩
  · split <;> exact ⟨_, rfl⟩

theorem execRead_goes_on {s : State} (h : seqOk s.eng = true) : ∃ t, execRead s = .next t := by
  unfold execRead
  split
  · next hc =>
    split
    · exact ⟨_, rfl⟩
    · next hm => exact exchangeOn_goes_on h (by simp [hc]) (fun hp => by simp [cur_tare_of_seq_poll h hp] at hc) hm
  · refine whenBuilt_goes_on h ?_
    split
    · exact ⟨_, rfl⟩
    · exact readNotReady_goes_on s
  · exact whenBuilt_goes_on h ⟨s, rfl⟩

theorem execTare_goes_on {s : State} (h : seqOk s.eng = true) : ∃ t, execTare s = .next t := by
  unfold execTare
  split
  · next hc =>
    split
    · exact pollOnce_goes_on s
    · next hp =>
      split
      · exact ⟨_, rfl⟩
      · next hm => exact exchangeOn_goes_on h (by simp [hc]) hp hm
  · exact whenBuilt_goes_on h ⟨_, rfl⟩
  · exact whenBuilt_goes_on h ⟨s, rfl⟩

theorem exec_goes_on (i : Instr) {s : State} (h : seqOk s.eng = true) : ∃ t, exec i s = .next t := by
  cases i with
  | new arg => exact execNew_goes_on arg h
  | isReady => exact whenBuilt_goes_on h ⟨_, rfl⟩
  | read => exact execRead_goes_on h
  | tare => exact execTare_goes_on h
  | getOffset => exact whenBuilt_goes_on h ⟨_, rfl⟩
  | getLast => exact whenBuilt_goes_on h ⟨_, rfl⟩

/-! ### What a step selects, the turn, the step -/

/-- The state on which a step does what it has selected. -/
def Selected.state : Selected → State
  | .run _ t => t
  | .badCommand t => t
  | .host t => t

theorem takeCommand_stateOk (c : Command) {s : State} (h : StateOk s) : StateOk (takeCommand c s).state := by
  rcases takeCommand_cases c s with ⟨i, -, hs⟩ | hs
  · rw [hs]
    exact h.of_eng_eq rfl h.ctx
  · rw [hs]
    exact h

/-- No choice of what to run touches the engine, and only a running handler has acts left after it. -/
theorem select_stateOk {s : State} (h : StateOk s) : StateOk (select s).state := by
  rcases select_cases s with ⟨-, hs⟩ | ⟨-, hs⟩ | ⟨-, hm, hmain⟩ | ⟨-, hirq, hhandler⟩
  · rw [hs]; exact h
  · rw [hs]; exact h
  · rcases hmain with ⟨-, hs⟩ | ⟨-, -, hs⟩ | ⟨-, c, r, -, hs⟩ <;> rw [hs]
    · exact h.of_eng_eq rfl (by simp [Selected.state])
    · exact h
    · exact takeCommand_stateOk c (h.of_eng_eq rfl h.ctx)
  · have hwith : ∀ r, StateOk (withTodo r s) := fun r => h.of_eng_eq rfl (by simp [hirq])
    rcases hhandler with ⟨ht, hs⟩ | ⟨r, -, hs⟩ | ⟨r, -, ⟨-, hs⟩ | ⟨-, hs⟩⟩ | ⟨c, r, -, hs⟩ <;> rw [hs]
    · exact h.of_eng_eq rfl fun _ => ht
    · exact hwith r
    · exact hwith r
    · exact hwith r
    · exact takeCommand_stateOk c (hwith r)

/-- A turn in a state that meets the invariant answers a state that meets it. -/
theorem turn_goes_on {s : State} (h : StateOk s) : ∃ t, turn s = .next t ∧ StateOk t := by
  have hsel := select_stateOk h
  unfold turn
  split
  · next i u hs =>
    rw [hs] at hsel
    obtain ⟨t, ht⟩ := exec_goes_on i hsel.seq
    exact ⟨t, ht, exec_keeps_stateOk hsel ht⟩
  · next u hs =>
    rw [hs] at hsel
    obtain ⟨t, ht⟩ := accept_goes_on hsel.seq ⟨_, rfl⟩
    refine ⟨t, ht, ?_⟩
    rcases accept_cases ht with ⟨-, hb⟩ | ⟨-, rfl⟩
    · cases hb
      exact hsel.of_eng_eq rfl hsel.ctx
    · exact hsel
  · next u hs =>
    rw [hs] at hsel
    exact ⟨u, rfl, hsel⟩

/-- A step in a state that meets the invariant answers a state that meets it: the gap touches neither the engine nor the port. -/
theorem step_goes_on {s : State} (h : StateOk s) : ∃ t, step s = .next t ∧ StateOk t := by
  obtain ⟨u, hu, hok⟩ := turn_goes_on h
  exact ⟨passGap u, by simp [step, hu], hok.of_eng_eq rfl hok.ctx⟩

/-- Settles O57, by induction on the number of steps: each step goes on and keeps the invariant. -/
theorem machineNeverStops : Obligations.MachineNeverStops := by
  intro n
  induction n with
  | zero => exact fun s h => ⟨s, rfl, h⟩
  | succ n ih =>
    intro s h
    obtain ⟨u, hu, hok⟩ := step_goes_on h
    rw [runFor_step hu]
    exact ih u hok

end Sys2Proof.Machine

/-!
PROOFS. What reset and NEW leave (R28, R89, R117), and the frames of the six operations (R30), read off the lemmas that say everything a
meaning can do.
-/

namespace Sys2Proof.Machine

/-! ### Reset (R117) and the initialisation points (R28) -/

/-- An unconstructed engine at `IDLE` that no operation owns meets the invariant, whatever else it holds. -/
theorem EngineOk.of_unbuilt {e : Engine} (hc : e.constructed = false) (hi : e.seq = .idle) (hn : e.cur = .none) :
    EngineOk e :=
  ⟨by simp [seqOk, hi, hn], fun _ => hi, by simp [hc], by simp [hc], by simp [hc]⟩

/-- No clock level is on the wire before a NEW (R28). -/
theorem clockLine_of_unbuilt {s : State} (hc : s.eng.constructed = false) : clockLine s = none := by
  simp [clockLine, hc]

/-- With the lines configured a constructed engine's level is on the wire (R127). -/
theorem clockLine_of_built {s : State} (hc : s.eng.constructed = true) (hl : LinesConfigured s) :
    clockLine s = some s.eng.sck := by
  simp [clockLine, hc, hl]

/-- Settles O54: both states hold the values of R28's first column, and an unconstructed engine does not drive its line. -/
theorem resetLeavesAnIdleEngine : Obligations.ResetLeavesAnIdleEngine := by
  rintro s (rfl | ⟨u, rfl⟩)
  · exact ⟨rfl, rfl, rfl, rfl, rfl, clockLine_of_unbuilt rfl⟩
  · exact ⟨rfl, rfl, rfl, rfl, rfl, clockLine_of_unbuilt rfl⟩

/-- Settles O55: reset leaves an unconstructed idle engine, and the host in its main context with nothing to do. -/
theorem invariantAfterReset : Obligations.InvariantAfterReset :=
  ⟨(stateOk_iff _).2 ⟨.of_unbuilt rfl rfl rfl, fun _ => rfl⟩,
    fun _ => (stateOk_iff _).2 ⟨.of_unbuilt rfl rfl rfl, fun _ => rfl⟩⟩

/-- The three rows of the gain table (R62). -/
theorem gainPulses_of_row {arg : BitVec 8} {g : BitVec 2}
    (h : (arg = 128#8 ∧ g = 1#2) ∨ (arg = 64#8 ∧ g = 2#2) ∨ (arg = 32#8 ∧ g = 3#2)) : gainPulses arg = some g := by
  rcases h with ⟨rfl, rfl⟩ | ⟨rfl, rfl⟩ | ⟨rfl, rfl⟩ <;> rfl

/-- A NEW that passes its checks writes the registers of R89. -/
theorem execNew_constructs {s : State} {arg : BitVec 8} {g : BitVec 2} (hi : Idle s) (hc : s.eng.constructed = false)
    (hg : gainPulses arg = some g) :
    execNew arg s = .next (withResp (some (okResponse 0#32)) { s with
      eng := { s.eng with gain := g, offset := offsetInit, lastValue := Config.lastInit s.env.tick, sck := 0#1,
                          cur := .none, seq := .idle, constructed := true } }) := by
  simp [execNew, accept_idle hi, hc, hg, finish, respond, drive]

/-- Settles O59: the second column of R28's table is what `execNew_constructs` writes and what it leaves. -/
theorem initialisationPoints : Obligations.InitialisationPoints := by
  intro s arg g hi hc hp hrow
  exact ⟨_, execNew_constructs hi hc (gainPulses_of_row hrow), rfl, ⟨rfl, rfl⟩, hp, rfl, rfl, rfl, rfl,
    fun hl => clockLine_of_built rfl hl⟩

/-! ### Before construction (R23, R71) -/

/-- Every operation but NEW begins with the check of R71. -/
theorem whenBuilt_unbuilt {s : State} (hi : Idle s) (hc : s.eng.constructed = false) (b : Answer) :
    whenBuilt s b = reject .state s := by
  simp [whenBuilt, accept_idle hi, hc]

/-- An unconstructed engine takes none of the line actions of an operation that wants a constructed one. -/
theorem whenAccepted_unbuilt {s : State} (hc : s.eng.constructed = false) (acts : List LineAction) :
    whenAccepted true s acts = [] := by
  simp [whenAccepted, hc]

/-- On an engine that no operation owns READ begins with the check of R71. -/
theorem execRead_of_cur_none {s : State} (h : s.eng.cur = .none) :
    execRead s = whenBuilt s (if isLow (sample s) then .next (beginExchange .read s) else readNotReady s) := by
  simp [execRead, h]

/-- On an engine that no operation owns TARE begins with the check of R71. -/
theorem execTare_of_cur_none {s : State} (h : s.eng.cur = .none) :
    execTare s = whenBuilt s (.next (beginTare s)) := by
  simp [execTare, h]

/-- Settles O13: on an idle engine each of the five is its check, which fails. -/
theorem othersRejectedBeforeConstruction : Obligations.OthersRejectedBeforeConstruction := by
  intro s i hi hc hnew
  cases i with
  | new arg => exact absurd rfl (hnew arg)
  | isReady => exact ⟨whenBuilt_unbuilt hi hc _, whenAccepted_unbuilt hc _⟩
  | getOffset => exact ⟨whenBuilt_unbuilt hi hc _, rfl⟩
  | getLast => exact ⟨whenBuilt_unbuilt hi hc _, rfl⟩
  | read =>
    exact ⟨(execRead_of_cur_none hi.1).trans (whenBuilt_unbuilt hi hc _), by simp [actionsOf, hi.1, whenAccepted_unbuilt hc]⟩
  | tare =>
    exact ⟨(execTare_of_cur_none hi.1).trans (whenBuilt_unbuilt hi hc _), by simp [actionsOf, hi.1]⟩

/-! ### Frames (R30) -/

/-- Of the port a meaning changes only the response and, in a READ, the mark of R74. -/
theorem exec_port {i : Instr} {s t : State} (h : exec i s = .next t) :
    t.port = { s.port with resp := t.port.resp, notReadyRead := t.port.notReadyRead } := by
  obtain ⟨-, hctx, htodo, hbreach, -⟩ := exec_outside h
  simp only [← hctx, ← htodo, ← hbreach]

/-- No operation but READ sets a mark, so of the port it changes only the response. -/
theorem exec_port_of_ne_read {i : Instr} {s t : State} (hi : i ≠ .read) (h : exec i s = .next t) :
    t.port = { s.port with resp := t.port.resp } := by
  obtain ⟨-, -, -, -, hmark | ⟨hread, -⟩⟩ := exec_outside h
  · simpa only [hmark] using exec_port h
  · exact absurd hread hi

/-- A line of the exchange leaves the registers, `gain` and `constructed` alone. -/
theorem exchangeLine_frame {b : Bit} {e e' : Engine} (h : exchangeLine b e = some e') :
    e'.offset = e.offset ∧ e'.lastValue = e.lastValue ∧ e'.gain = e.gain ∧ e'.constructed = e.constructed := by
  rcases exchangeLine_cases h with ⟨_, _, rfl⟩ | ⟨_, _, _, rfl⟩ | ⟨_, _, _, rfl⟩ | ⟨_, _, rfl⟩
  all_goals exact ⟨rfl, rfl, rfl, rfl⟩

/-- Settles O33: an accessor answers or waits, and leaves the engine either way. -/
theorem accessorsFrame : Obligations.AccessorsFrame := by
  intro s t i hi hx
  have hread : i ≠ .read := by rintro rfl; simp at hi
  refine ⟨?_, (exec_outside hx).1, exec_port_of_ne_read hread hx⟩
  rcases hi with rfl | rfl | rfl
  all_goals rcases answer_cases hx with ⟨_, _, rfl⟩ | ⟨_, rfl⟩ <;> rfl

/-- NEW drives the clock line or does nothing on the lines (R93 (3)). -/
theorem sample_not_mem_actionsOf_new (arg : BitVec 8) (s : State) : LineAction.sample ∉ actionsOf (.new arg) s := by
  simp only [actionsOf, whenAccepted]
  split
  · split <;> simp
  · simp

/-- Settles O34: no case of NEW writes `sh`. -/
theorem newFrame : Obligations.NewFrame := by
  intro s t arg hx
  refine ⟨?_, (exec_outside hx).1, exec_port_of_ne_read (by simp) hx, sample_not_mem_actionsOf_new arg s⟩
  rcases execNew_cases hx with ⟨_, _, rfl⟩ | ⟨_, _, _, rfl⟩ | ⟨_, _, _, _, rfl⟩ | ⟨_, rfl⟩ <;> rfl

/-- Settles O25: only the commit step writes `last_value`; a line of the exchange and the start of one leave the registers. -/
theorem readFrame : Obligations.ReadFrame := by
  intro s t hx
  obtain ⟨henv, -, -, -, hmark⟩ := exec_outside hx
  have hmark' : t.port.notReadyRead = s.port.notReadyRead ∨ (Working s ∧ sample s = 1#1) :=
    hmark.imp_right fun ⟨_, hw, hd, _⟩ => ⟨hw, hd⟩
  have hregs : t.eng.offset = s.eng.offset ∧ t.eng.gain = s.eng.gain ∧ t.eng.constructed = s.eng.constructed ∧
      (t.eng.lastValue = s.eng.lastValue ∨ (s.eng.cur = .read ∧ s.eng.seq = .commit)) := by
    rcases execRead_cases hx with
      ⟨hc, hm, rfl⟩ | ⟨_, _, hl, rfl⟩ | ⟨_, _, rfl⟩ | ⟨_, _, rfl | ⟨_, rfl⟩⟩ | ⟨_, _, rfl⟩ | ⟨_, rfl⟩
    · exact ⟨rfl, rfl, rfl, .inr ⟨hc, hm⟩⟩
    · obtain ⟨ho, hv, hg, hb⟩ := exchangeLine_frame hl
      exact ⟨ho, hg, hb, .inl hv⟩
    all_goals exact ⟨rfl, rfl, rfl, .inl rfl⟩
  obtain ⟨ho, hg, hb, hv⟩ := hregs
  exact ⟨ho, hg, hb, henv, hv, exec_port hx, hmark'⟩

/-- Settles O31: only the commit step writes the registers; a line of the exchange, a poll and the start leave them. -/
theorem tareFrame : Obligations.TareFrame := by
  intro s t hx
  have hregs : t.eng.gain = s.eng.gain ∧ t.eng.constructed = s.eng.constructed ∧
      ((t.eng.offset = s.eng.offset ∧ t.eng.lastValue = s.eng.lastValue) ∨
        (s.eng.cur = .tare ∧ s.eng.seq = .commit)) := by
    rcases execTare_cases hx with
      ⟨hc, hm, rfl⟩ | ⟨_, _, _, rfl⟩ | ⟨_, _, _, rfl⟩ | ⟨_, _, hl, rfl⟩ | ⟨_, rfl⟩ | ⟨_, _, rfl⟩ | ⟨_, rfl⟩
    · exact ⟨rfl, rfl, .inr ⟨hc, hm⟩⟩
    · exact ⟨rfl, rfl, .inl ⟨rfl, rfl⟩⟩
    · exact ⟨rfl, rfl, .inl ⟨rfl, rfl⟩⟩
    · obtain ⟨ho, hv, hg, hb⟩ := exchangeLine_frame hl
      exact ⟨hg, hb, .inl ⟨ho, hv⟩⟩
    all_goals exact ⟨rfl, rfl, .inl ⟨rfl, rfl⟩⟩
  obtain ⟨hg, hb, hr⟩ := hregs
  exact ⟨hg, hb, (exec_outside hx).1, hr, exec_port_of_ne_read (by simp) hx⟩

end Sys2Proof.Machine

/-!
PROOFS. What one step can do to the engine and to its clock line, said once (`EngineStep`), and the rules of `10_state.md` that follow from
it: the registers (R16, R17), `gain` and `constructed` (R18, R23), the sequencer's path (R21), the clock line (R25, R32).
-/

namespace Sys2Proof.Machine

/-! ### The moves of the engine -/

/-- What one step can do to the engine `e`: its actions on the lines, and the engine after them. -/
inductive EngineStep (e : Engine) : List LineAction → Engine → Prop where
  /-- No operation is in progress and none begins: an act of the host, an error, an accessor's answer, the no-op of R74 (a). -/
  | stay {acts : List LineAction} (cur : e.cur = .none) (sampleOnly : acts = [] ∨ acts = [.sample]) : EngineStep e acts e
  /-- A NEW that passes its checks (R89). -/
  | construct (g : BitVec 2) (v : Word) (cur : e.cur = .none) (seq : e.seq = .idle) (unbuilt : e.constructed = false) :
      EngineStep e [.drive 0#1]
        { e with gain := g, offset := offsetInit, lastValue := v, sck := 0#1, cur := .none, seq := .idle,
                 constructed := true }
  /-- READ's start (R73). -/
  | beginRead (cur : e.cur = .none) (seq : e.seq = .idle) (built : e.constructed = true) :
      EngineStep e [.sample] { e with cur := .read, sh := 0#24, seq := .hi 1 }
  /-- TARE's start (R81). -/
  | beginTare (cur : e.cur = .none) (seq : e.seq = .idle) (built : e.constructed = true) :
      EngineStep e [] { e with cur := .tare, seq := .poll }
  /-- A poll that sees the line high (R82). -/
  | poll (cur : e.cur = .tare) (seq : e.seq = .poll) : EngineStep e [.sample] e
  /-- A poll that sees the line low (R82). -/
  | endPoll (cur : e.cur = .tare) (seq : e.seq = .poll) :
      EngineStep e [.sample] { e with cur := .tare, sh := 0#24, seq := .hi 1 }
  /-- A line of the exchange (R75). -/
  | line {b : Bit} {e' : Engine} (cur : e.cur ≠ .none) (line : exchangeLine b e = some e') :
      EngineStep e (exchangeActions e.seq) e'
  /-- READ's commit step (R76). -/
  | commitRead (cur : e.cur = .read) (seq : e.seq = .commit) :
      EngineStep e [] { e with lastValue := corrected e.sh e.offset, cur := .none, seq := .idle }
  /-- TARE's commit step (R81). -/
  | commitTare (cur : e.cur = .tare) (seq : e.seq = .commit) :
      EngineStep e [] { e with lastValue := sext24 e.sh, offset := sext24 e.sh, cur := .none, seq := .idle }

/-- An operation in progress is `i` itself, so that `i` does not wait (R48). -/
abbrev GoesOn (i : Instr) (e : Engine) : Prop :=
  (e.cur = .read → i = .read) ∧ (e.cur = .tare → i = .tare)

/-- Only READ and TARE go on with an operation in progress. -/
theorem GoesOn.cur_none {i : Instr} {e : Engine} (h : GoesOn i e) (hr : i ≠ .read) (ht : i ≠ .tare) : e.cur = .none := by
  cases hc : e.cur with
  | none => rfl
  | read => exact absurd (h.1 hc) hr
  | tare => exact absurd (h.2 hc) ht

theorem whenAccepted_working {s : State} (h : Working s) (acts : List LineAction) : whenAccepted true s acts = acts := by
  simp [whenAccepted, h.1.1, h.1.2, h.2]

/-- READ's issue on a working engine samples its gate (R73). -/
theorem actionsOf_read_working {s : State} (h : Working s) : actionsOf .read s = [.sample] := by
  simp [actionsOf, h.1.1, whenAccepted_working h]

/-- IS_READY takes its one sample, or it is not accepted and takes none. -/
theorem actionsOf_isReady_cases (s : State) : actionsOf .isReady s = [] ∨ actionsOf .isReady s = [.sample] := by
  simp only [actionsOf, whenAccepted]
  split <;> simp

/-- `POLL` is no line of the exchange. -/
theorem seq_ne_poll_of_exchangeLine {b : Bit} {e e' : Engine} (h : exchangeLine b e = some e') : e.seq ≠ .poll := by
  intro hp
  simp [exchangeLine, hp] at h

/-! ### Each meaning makes one of the moves -/

/-- An operation that only answers data leaves the engine. -/
theorem answer_engineStep {d : Word} {s t : State} {acts : List LineAction} (hc : s.eng.cur = .none)
    (ha : acts = [] ∨ acts = [.sample]) (h : whenBuilt s (respond d s) = .next t) : EngineStep s.eng acts t.eng := by
  rcases answer_cases h with ⟨_, _, rfl⟩ | ⟨hn, _⟩
  · exact .stay hc ha
  · exact absurd hc hn

theorem execNew_engineStep {arg : BitVec 8} {s t : State} (hc : s.eng.cur = .none) (h : execNew arg s = .next t) :
    EngineStep s.eng (actionsOf (.new arg) s) t.eng := by
  rcases execNew_cases h with ⟨_, hb, rfl⟩ | ⟨_, _, hg, rfl⟩ | ⟨g, hi, hb, hg, rfl⟩ | ⟨hn, _⟩
  · exact .stay hc (.inl (by simp [actionsOf, whenAccepted, hb]))
  · exact .stay hc (.inl (by simp [actionsOf, hg]))
  · simpa [actionsOf, whenAccepted, hg, hi.1, hi.2, hb] using EngineStep.construct g _ hc hi.2 hb
  · exact absurd hc hn

theorem execRead_engineStep {s t : State} (hg : GoesOn .read s.eng) (h : execRead s = .next t) :
    EngineStep s.eng (actionsOf .read s) t.eng := by
  rcases execRead_cases h with
    ⟨hc, hm, rfl⟩ | ⟨hc, _, hl, rfl⟩ | ⟨hw, _, rfl⟩ | ⟨hw, _, rfl | ⟨_, rfl⟩⟩ | ⟨hi, hb, rfl⟩ | ⟨hc, _⟩
  · simpa [actionsOf, hc, hm, exchangeActions] using EngineStep.commitRead hc hm
  · simpa [actionsOf, hc] using EngineStep.line (by simp [hc]) hl
  · rw [actionsOf_read_working hw]
    exact .beginRead hw.1.1 hw.1.2 hw.2
  · rw [actionsOf_read_working hw]
    exact .beginRead hw.1.1 hw.1.2 hw.2
  · exact .stay hw.1.1 (.inr (actionsOf_read_working hw))
  · exact .stay hi.1 (.inl (by simp [actionsOf, hi.1, whenAccepted_unbuilt hb]))
  · exact absurd (hg.2 hc) (by simp)

theorem execTare_engineStep {s t : State} (hg : GoesOn .tare s.eng) (h : execTare s = .next t) :
    EngineStep s.eng (actionsOf .tare s) t.eng := by
  rcases execTare_cases h with
    ⟨hc, hm, rfl⟩ | ⟨hc, hp, _, rfl⟩ | ⟨hc, hp, _, rfl⟩ | ⟨hc, _, hl, rfl⟩ | ⟨hw, rfl⟩ | ⟨hi, _, rfl⟩ | ⟨hc, _⟩
  · simpa [actionsOf, hc, hm, exchangeActions] using EngineStep.commitTare hc hm
  · simpa [actionsOf, hc, hp, beginExchange] using EngineStep.endPoll hc hp
  · simpa [actionsOf, hc, hp] using EngineStep.poll hc hp
  · simpa [actionsOf, hc, seq_ne_poll_of_exchangeLine hl] using EngineStep.line (by simp [hc]) hl
  · simpa [actionsOf, hw.1.1, beginTare] using EngineStep.beginTare hw.1.1 hw.1.2 hw.2
  · exact .stay hi.1 (.inl (by simp [actionsOf, hi.1]))
  · exact absurd (hg.1 hc) (by simp)

theorem exec_engineStep {i : Instr} {s t : State} (hg : GoesOn i s.eng) (h : exec i s = .next t) :
    EngineStep s.eng (actionsOf i s) t.eng := by
  cases i with
  | new arg => exact execNew_engineStep (hg.cur_none (by simp) (by simp)) h
  | isReady => exact answer_engineStep (hg.cur_none (by simp) (by simp)) (actionsOf_isReady_cases s) h
  | read => exact execRead_engineStep hg h
  | tare => exact execTare_engineStep hg h
  | getOffset => exact answer_engineStep (hg.cur_none (by simp) (by simp)) (.inl rfl) h
  | getLast => exact answer_engineStep (hg.cur_none (by simp) (by simp)) (.inl rfl) h

/-! ### So does each step -/

/-- Taking a word from the port touches neither the engine nor the outside. -/
theorem takeCommand_state (c : Command) (s : State) :
    (takeCommand c s).state.eng = s.eng ∧ (takeCommand c s).state.env = s.env := by
  rcases takeCommand_cases c s with ⟨i, -, hs⟩ | hs <;> rw [hs] <;> exact ⟨rfl, rfl⟩

/-- No choice of what to run touches the engine or the launch premise. -/
theorem select_state (s : State) :
    (select s).state.eng = s.eng ∧ (select s).state.env.configured = s.env.configured := by
  rcases select_cases s with ⟨-, hs⟩ | ⟨-, hs⟩ | ⟨-, -, hmain⟩ | ⟨-, -, hhandler⟩
  · rw [hs]; exact ⟨rfl, rfl⟩
  · rw [hs]; exact ⟨rfl, rfl⟩
  · rcases hmain with ⟨-, hs⟩ | ⟨-, -, hs⟩ | ⟨-, c, r, -, hs⟩ <;> rw [hs]
    · exact ⟨rfl, rfl⟩
    · exact ⟨rfl, rfl⟩
    · obtain ⟨heng, henv⟩ := takeCommand_state c (withCmds r s)
      exact ⟨heng, by rw [henv]; rfl⟩
  · rcases hhandler with ⟨-, hs⟩ | ⟨r, -, hs⟩ | ⟨r, -, ⟨-, hs⟩ | ⟨-, hs⟩⟩ | ⟨c, r, -, hs⟩ <;> rw [hs]
    · exact ⟨rfl, rfl⟩
    · exact ⟨rfl, rfl⟩
    · exact ⟨rfl, rfl⟩
    · exact ⟨rfl, rfl⟩
    · obtain ⟨heng, henv⟩ := takeCommand_state c (withTodo r s)
      exact ⟨heng, by rw [henv]; rfl⟩

/-- An operation in progress is what a step runs (R48, R101). -/
theorem goesOn_of_select {s u : State} {i : Instr} (h : select s = .run i u) : GoesOn i s.eng := by
  constructor <;> intro hc
  · rw [select_read hc] at h
    cases h
    rfl
  · rw [select_tare hc] at h
    cases h
    rfl

/-- A step that runs no operation finds none in progress. -/
theorem cur_none_of_select {s : State} (h : ∀ i u, select s ≠ .run i u) : s.eng.cur = .none := by
  cases hc : s.eng.cur with
  | none => rfl
  | read => exact absurd (select_read hc) (h _ _)
  | tare => exact absurd (select_tare hc) (h _ _)

/-- A turn makes one of the engine's moves, with the line actions listed for it, and leaves the launch premise. -/
theorem turn_engineStep {s t : State} (h : turn s = .next t) :
    EngineStep s.eng (stepActions s) t.eng ∧ t.env.configured = s.env.configured := by
  obtain ⟨heng, hconf⟩ := select_state s
  rw [turn] at h
  cases hs : select s with
  | run i u =>
    simp only [hs, Selected.state] at h heng hconf
    have hacts : stepActions s = actionsOf i u := by simp [stepActions, hs]
    have hmove := exec_engineStep (heng ▸ goesOn_of_select hs) h
    rw [heng] at hmove
    exact ⟨hacts ▸ hmove, by rw [(exec_outside h).1, hconf]⟩
  | badCommand u =>
    simp only [hs, Selected.state] at h heng hconf
    have hc : s.eng.cur = .none := cur_none_of_select (by simp [hs])
    have hacts : stepActions s = [] := by simp [stepActions, hs]
    rcases accept_cases h with ⟨-, hb⟩ | ⟨hn, -⟩
    · cases hb
      rw [withResp_eng, heng]
      exact ⟨.stay hc (.inl hacts), hconf⟩
    · exact absurd hc (heng ▸ hn)
  | host u =>
    simp only [hs, Selected.state] at h heng hconf
    have hc : s.eng.cur = .none := cur_none_of_select (by simp [hs])
    have hacts : stepActions s = [] := by simp [stepActions, hs]
    cases h
    rw [heng]
    exact ⟨.stay hc (.inl hacts), hconf⟩

/-- A step makes one of the engine's moves, with the line actions listed for it. -/
theorem step_engineStep {s t : State} (h : step s = .next t) : EngineStep s.eng (stepActions s) t.eng := by
  obtain ⟨u, hu, rfl⟩ := step_eq_next h
  exact (turn_engineStep hu).1

/-- No step configures the lines or undoes it (R127). -/
theorem step_configured {s t : State} (h : step s = .next t) : t.env.configured = s.env.configured := by
  obtain ⟨u, hu, rfl⟩ := step_eq_next h
  exact (turn_engineStep hu).2

/-! ### What the moves keep -/

/-- Settles O56: the step that goes on from such a state is the one given. -/
theorem stepKeepsTheInvariant : Obligations.StepKeepsTheInvariant := by
  intro s t h hst
  obtain ⟨u, hu, hok⟩ := step_goes_on h
  cases hst.symm.trans hu
  exact hok

/-- Settles O35: only the two commit steps and a NEW write a register. -/
theorem registersChangeOnlyAtCommit : Obligations.RegistersChangeOnlyAtCommit := by
  intro s t _ hst
  have hmove := step_engineStep hst
  generalize s.eng = e, t.eng = e', stepActions s = acts at hmove ⊢
  cases hmove with
  | construct g v hc hq hb => exact .inr (.inr (.inr ⟨hb, rfl, rfl⟩))
  | commitRead hc hm => exact .inr (.inl ⟨hm, hc, rfl, rfl⟩)
  | commitTare hc hm => exact .inr (.inr (.inl ⟨hm, hc, rfl, rfl⟩))
  | line hc hl =>
    obtain ⟨ho, hv, -, -⟩ := exchangeLine_frame hl
    exact .inl ⟨hv, ho⟩
  | stay | beginRead | beginTare | poll | endPoll => exact .inl ⟨rfl, rfl⟩

/-- No move unmakes a constructed engine or changes its gain: NEW needs an unconstructed one (R91). -/
theorem EngineStep.keeps_gain {e e' : Engine} {acts : List LineAction} (h : EngineStep e acts e')
    (hc : e.constructed = true) : e'.constructed = true ∧ e'.gain = e.gain := by
  cases h with
  | construct g v _ _ hb => simp [hc] at hb
  | line _ hl =>
    obtain ⟨-, -, hg, hb⟩ := exchangeLine_frame hl
    exact ⟨hb.trans hc, hg⟩
  | stay | beginRead | beginTare | poll | endPoll | commitRead | commitTare => exact ⟨hc, rfl⟩

/-- Settles O37, by induction on the number of steps. -/
theorem gainFixedForLife : Obligations.GainFixedForLife := by
  intro n
  induction n with
  | zero =>
    intro s t hc hr
    cases hr
    exact ⟨hc, rfl⟩
  | succ n ih =>
    intro s t hc hr
    obtain ⟨u, hu, hrest⟩ := runFor_succ_eq_next hr
    obtain ⟨hcu, hgu⟩ := (step_engineStep hu).keeps_gain hc
    obtain ⟨hct, hgt⟩ := ih u t hcu hrest
    exact ⟨hct, hgt.trans hgu⟩

/-- A line of the exchange moves to the successor of its position (R21). -/
theorem exchangeLine_mayFollow {b : Bit} {e e' : Engine} (h : exchangeLine b e = some e') :
    mayFollow e.gain e.seq e'.seq = true := by
  rcases exchangeLine_cases h with ⟨k, hk, rfl⟩ | ⟨k, hk, _, rfl⟩ | ⟨k, hk, _, rfl⟩ | ⟨k, hk, rfl⟩
  · simp [mayFollow, hk]
  · simp [mayFollow, hk]
  · simp [mayFollow, hk]
  · by_cases hlast : k < 24 + e.gain.toNat <;> simp [mayFollow, hk, afterLow, pulses, nData, hlast]

/-- Every move goes to a successor of the position: an engine that stays is at `IDLE` or `POLL`, which may follow themselves. -/
theorem EngineStep.seq_mayFollow {e e' : Engine} {acts : List LineAction} (h : EngineStep e acts e')
    (hok : seqOk e = true) : mayFollow e.gain e.seq e'.seq = true := by
  cases h with
  | stay hc _ => rw [seq_idle_of_cur_none hok hc]; rfl
  | construct _ _ _ hq _ => rw [hq]; rfl
  | beginRead _ hq _ => rw [hq]; rfl
  | beginTare _ hq _ => rw [hq]; rfl
  | poll _ hq => rw [hq]; rfl
  | endPoll _ hq => rw [hq]; rfl
  | line _ hl => exact exchangeLine_mayFollow hl
  | commitRead _ hq => rw [hq]; rfl
  | commitTare _ hq => rw [hq]; rfl

/-- Settles O38: the step's move goes to a successor. -/
theorem sequencerFollowsItsPath : Obligations.SequencerFollowsItsPath :=
  fun _ _ hok hst => (step_engineStep hst).seq_mayFollow hok.seq

/-- A line of the exchange leaves the clock at the level its actions drive, and a sample leaves it (R32). -/
theorem exchangeLine_sck {b : Bit} {e e' : Engine} (h : exchangeLine b e = some e') :
    e'.sck = lastDriven e.sck (exchangeActions e.seq) := by
  rcases exchangeLine_cases h with ⟨k, hk, rfl⟩ | ⟨k, hk, hd, rfl⟩ | ⟨k, hk, hd, rfl⟩ | ⟨k, hk, rfl⟩
  · rw [hk]; rfl
  · simp [hk, exchangeActions, hd, lastDriven]
  · simp [hk, exchangeActions, Nat.not_le.2 hd, lastDriven]
  · rw [hk]; rfl

/-- The clock is at the level that a move's actions drove last. -/
theorem EngineStep.sck_eq {e e' : Engine} {acts : List LineAction} (h : EngineStep e acts e') :
    e'.sck = lastDriven e.sck acts := by
  cases h with
  | stay _ ha => rcases ha with rfl | rfl <;> rfl
  | line _ hl => exact exchangeLine_sck hl
  | construct | beginRead | beginTare | poll | endPoll | commitRead | commitTare => rfl

/-- Settles O39: the engine's level is the one driven last, and R127 puts it on the wire. -/
theorem clockLineFollowsTheDrives : Obligations.ClockLineFollowsTheDrives := by
  intro s t hst
  have hsck := (step_engineStep hst).sck_eq
  refine ⟨hsck, fun hl hc => ?_⟩
  rw [clockLine_of_built hc ((step_configured hst).trans hl), hsck]

end Sys2Proof.Machine

/-!
PROOFS. What a step runs (R48, R55, R107): on an idle engine what its issuer gives up, in progress the operation that owns the sequence,
while every other operation waits; and that between commit steps a run leaves both registers alone (R49).
-/

namespace Sys2Proof.Machine

/-! ### A step by what it has selected -/

theorem step_of_select_run {s u : State} {i : Instr} (h : select s = .run i u) : step s = thenGap (exec i u) := by
  simp [step, turn, h]

theorem step_of_select_host {s u : State} (h : select s = .host u) : step s = .next (passGap u) := by
  simp [step, turn, h]

theorem step_of_cur_read {s : State} (h : s.eng.cur = .read) : step s = thenGap (exec .read s) :=
  step_of_select_run (select_read h)

theorem step_of_cur_tare {s : State} (h : s.eng.cur = .tare) : step s = thenGap (exec .tare s) :=
  step_of_select_run (select_tare h)

/-- A word that is an operation is issued with the mark of R112. -/
theorem takeCommand_of_decode {c : Command} {i : Instr} (h : decode c = .instr i) (s : State) :
    takeCommand c s = .run i (noteBreach i s) := by
  simp [takeCommand, h]

/-- Between operations the interrupt context takes its next act (R107). -/
theorem select_irq {s : State} (hc : s.eng.cur = .none) (hx : s.port.ctx = .irq) : select s = handlerTurn s := by
  simp [select, hc, hx]

/-- The answer of true, on which SERVICE issues its READ (R57, R107). -/
theorem okResponse_true : okResponse (boolWord true) = 1#34 := by decide

/-- What the mark of R112 does to a command of the interrupt context's. -/
theorem noteBreach_irq (i : Instr) {s : State} (h : s.port.ctx = .irq) :
    noteBreach i s = { s with port := { s.port with irqBreach := s.port.irqBreach || barredInHandler i } } := by
  simp [noteBreach, h]

/-- Settles O44: each clause is what `select` picks in its case, run. -/
theorem stepRunsTheDecodedOperation : Obligations.StepRunsTheDecodedOperation := by
  refine ⟨?_, ?_, ?_, ?_, fun _ => step_of_cur_read, fun _ => step_of_cur_tare⟩
  · intro s c r i hi hm he hq hd
    have hsel := (select_main hi.1 hm he hq).trans (takeCommand_of_decode hd _)
    rw [noteBreach_main i (withCmds r s) hm] at hsel
    exact step_of_select_run hsel
  · intro s r hi hx ht
    exact step_of_select_run (by rw [select_irq hi.1 hx, handlerTurn, ht]; rfl)
  · intro s r hi hx ht
    have hsel := select_irq hi.1 hx
    simp only [handlerTurn, ht, okResponse_true] at hsel
    exact ⟨fun hr => step_of_select_run (hsel.trans (if_pos hr)), fun hr => step_of_select_host (hsel.trans (if_neg hr))⟩
  · intro s r c i hi hx ht hd
    have hsel := select_irq hi.1 hx
    simp only [handlerTurn, ht, takeCommand_of_decode hd, noteBreach_irq i (s := withTodo r s) hx] at hsel
    exact step_of_select_run hsel

/-! ### While an operation is in progress (R48, R101) -/

theorem whenBuilt_busy {s : State} (h : s.eng.cur ≠ .none) (b : Answer) : whenBuilt s b = .next s :=
  accept_busy h _

/-- A READ issued while a TARE is in progress waits. -/
theorem execRead_of_cur_tare {s : State} (h : s.eng.cur = .tare) : execRead s = .next s := by
  rw [execRead, h]
  exact whenBuilt_busy (by simp [h]) _

/-- A TARE issued while a READ is in progress waits. -/
theorem execTare_of_cur_read {s : State} (h : s.eng.cur = .read) : execTare s = .next s := by
  rw [execTare, h]
  exact whenBuilt_busy (by simp [h]) _

/-- Settles O42: on a busy engine every operation but the owner of the sequence stops at its check. -/
theorem othersWaitWhileBusy : Obligations.OthersWaitWhileBusy := by
  intro s i h
  have hbusy : s.eng.cur ≠ .none := by rcases h with ⟨hc, -⟩ | ⟨hc, -⟩ <;> simp [hc]
  cases i with
  | new arg => exact accept_busy hbusy _
  | isReady => exact whenBuilt_busy hbusy _
  | getOffset => exact whenBuilt_busy hbusy _
  | getLast => exact whenBuilt_busy hbusy _
  | read => exact execRead_of_cur_tare (by simpa using h)
  | tare => exact execTare_of_cur_read (by simpa using h)

/-- At `COMMIT` READ runs its commit step (R76). -/
theorem execRead_of_commit {s : State} (hc : s.eng.cur = .read) (hm : s.eng.seq = .commit) : execRead s = commitRead s := by
  simp [execRead, hc, hm]

/-- Before `COMMIT` READ runs its exchange (R73). -/
theorem execRead_of_ne_commit {s : State} (hc : s.eng.cur = .read) (hm : s.eng.seq ≠ .commit) :
    execRead s = exchangeOn s := by
  simp [execRead, hc, hm]

/-- At `COMMIT` TARE runs its commit step (R81). -/
theorem execTare_of_commit {s : State} (hc : s.eng.cur = .tare) (hm : s.eng.seq = .commit) : execTare s = commitTare s := by
  simp [execTare, hc, hm]

/-- Between its last poll and `COMMIT` TARE runs its exchange (R81). -/
theorem execTare_of_ne_commit {s : State} (hc : s.eng.cur = .tare) (hp : s.eng.seq ≠ .poll) (hm : s.eng.seq ≠ .commit) :
    execTare s = exchangeOn s := by
  simp [execTare, hc, hp, hm]

/-- A line of the exchange that is due is run. -/
theorem exchangeOn_of_exchangeLine {s : State} {e : Engine} (h : exchangeLine (sample s) s.eng = some e) :
    exchangeOn s = .next { s with eng := e } := by
  simp [exchangeOn, h]

/-- On a busy engine a step runs some operation on the state as it stands. -/
theorem step_of_busy {s : State} (h : s.eng.cur ≠ .none) : ∃ i, step s = thenGap (exec i s) := by
  cases hc : s.eng.cur with
  | none => exact absurd hc h
  | read => exact ⟨_, step_of_cur_read hc⟩
  | tare => exact ⟨_, step_of_cur_tare hc⟩

/-- Settles O43: no meaning touches the contexts or the outside, and the gap adds to the queue at its end. -/
theorem operationInProgressRunsAlone : Obligations.OperationInProgressRunsAlone := by
  intro s t hc hst
  obtain ⟨i, hi⟩ := step_of_busy hc
  obtain ⟨u, hu, rfl⟩ := thenGap_eq_next (hi.symm.trans hst)
  obtain ⟨henv, hctx, htodo, -, -⟩ := exec_outside hu
  exact ⟨hctx, htodo, congrArg advance henv, by rw [passGap_env, henv, advance_cmds]⟩

/-! ### Between commit steps (R49) -/

/-- Of a constructed engine a step that is no commit step leaves both registers alone. -/
theorem step_keeps_registers {s t : State} (h : StateOk s) (hb : s.eng.constructed = true) (hm : s.eng.seq ≠ .commit)
    (hst : step s = .next t) : t.eng.lastValue = s.eng.lastValue ∧ t.eng.offset = s.eng.offset := by
  rcases registersChangeOnlyAtCommit s t h hst with hsame | ⟨hq, -⟩ | ⟨hq, -⟩ | ⟨hn, -⟩
  · exact hsame
  · exact absurd hq hm
  · exact absurd hq hm
  · simp [hb] at hn

/-- Settles O36, by induction on the number of steps: each leaves a constructed engine that meets the invariant. -/
theorem registersStableBetweenCommits : Obligations.RegistersStableBetweenCommits := by
  intro n
  induction n with
  | zero =>
    intro s t _ _ _ hr
    cases hr
    exact ⟨rfl, rfl⟩
  | succ n ih =>
    intro s t h hb hm hr
    obtain ⟨u, hu, hrest⟩ := runFor_succ_eq_next hr
    obtain ⟨hv, ho⟩ := step_keeps_registers h hb (hm 0 s n.succ_pos rfl) hu
    obtain ⟨hvt, hot⟩ := ih u t (stepKeepsTheInvariant s u h hu) ((step_engineStep hu).keeps_gain hb).1
      (fun k w hk hw => hm (k + 1) w (Nat.succ_lt_succ hk) ((runFor_step hu k).trans hw)) hrest
    exact ⟨hvt.trans hv, hot.trans ho⟩

end Sys2Proof.Machine

/-!
PROOFS. Which meanings read the data line (R33, R38): a change to the state that leaves the engine alone goes through the checks, and a
line of the exchange that takes no sample does not ask for the level.
-/

namespace Sys2Proof.Machine

@[simp] theorem withDout_eng (b : Bit) (s : State) : (withDout b s).eng = s.eng := rfl

/-! ### The checks see the engine alone -/

section

variable {f : State → State} (heng : ∀ s, (f s).eng = s.eng)
include heng

/-- `accept` commutes with a change `f` that leaves the engine alone, if the body does where it runs. -/
theorem accept_commutes {s t : State} {a a' : Answer} (h : accept s a = .next t)
    (ha : a = .next t → a' = .next (f t)) : accept (f s) a' = .next (f t) := by
  rcases accept_cases h with ⟨hi, hb⟩ | ⟨hc, rfl⟩
  · rw [accept_idle (by rwa [Idle, heng]), ha hb]
  · exact accept_busy (by rwa [heng]) _

/-- So does `whenBuilt`, if `f` leaves the response's place alone too. -/
theorem whenBuilt_commutes (hresp : ∀ r s, f (withResp r s) = withResp r (f s)) {s t : State} {a a' : Answer}
    (h : whenBuilt s a = .next t) (ha : Working s → a = .next t → a' = .next (f t)) :
    whenBuilt (f s) a' = .next (f t) := by
  rcases whenBuilt_cases h with ⟨hw, hb⟩ | ⟨hi, hc, rfl⟩ | ⟨hc, rfl⟩
  · rw [whenBuilt_working (by rwa [Working, Idle, heng]), ha hw hb]
  · rw [whenBuilt_unbuilt (by rwa [Idle, heng]) (by rwa [heng]), reject, hresp]
  · exact accept_busy (by rwa [heng]) _

end

/-! ### The meanings, at another level of the line -/

/-- A line of the exchange that takes no sample does the same at either level (D13 for a gain pulse). -/
theorem exchangeLine_of_no_sample {e : Engine} (h : LineAction.sample ∉ exchangeActions e.seq) (b c : Bit) :
    exchangeLine b e = exchangeLine c e := by
  cases hq : e.seq with
  | smp k =>
    have hk : ¬k ≤ nData := fun hk => by simp [exchangeActions, hq, hk] at h
    simp [exchangeLine, hq, hk]
  | hi k | lo k | idle | poll | commit => simp [exchangeLine, hq]

theorem exchangeOn_withDout {s t : State} (b : Bit) (hs : LineAction.sample ∉ exchangeActions s.eng.seq)
    (h : exchangeOn s = .next t) : exchangeOn (withDout b s) = .next (withDout b t) := by
  obtain ⟨e, he, rfl⟩ := exchangeOn_cases h
  exact exchangeOn_of_exchangeLine (s := withDout b s) ((exchangeLine_of_no_sample hs _ _).trans he)

theorem execNew_withDout {arg : BitVec 8} {s t : State} (b : Bit) (h : execNew arg s = .next t) :
    execNew arg (withDout b s) = .next (withDout b t) := by
  refine accept_commutes (withDout_eng b) h fun hb => ?_
  rw [withDout_eng]
  split at hb
  · next hc =>
    cases hb
    exact if_pos hc
  · next hc =>
    rw [if_neg hc]
    split at hb
    all_goals
      cases hb
      rfl

/-- READ in progress reads the line only in a data pulse; at its issue it samples its gate or is rejected. -/
theorem execRead_withDout {s t : State} (b : Bit) (hs : LineAction.sample ∉ actionsOf .read s) (h : execRead s = .next t) :
    execRead (withDout b s) = .next (withDout b t) := by
  cases hc : s.eng.cur with
  | none =>
    rw [execRead_of_cur_none hc] at h
    rw [execRead_of_cur_none (s := withDout b s) hc]
    refine whenBuilt_commutes (withDout_eng b) (fun _ _ => rfl) h fun hw _ => ?_
    simp [actionsOf_read_working hw] at hs
  | read =>
    simp only [actionsOf, hc] at hs
    by_cases hm : s.eng.seq = .commit
    · rw [execRead_of_commit hc hm] at h
      cases h
      exact execRead_of_commit (s := withDout b s) hc hm
    · rw [execRead_of_ne_commit hc hm] at h
      exact (execRead_of_ne_commit (s := withDout b s) hc hm).trans (exchangeOn_withDout b hs h)
  | tare =>
    rw [execRead_of_cur_tare hc] at h
    cases h
    exact execRead_of_cur_tare (s := withDout b s) hc

/-- TARE in progress reads the line at `POLL` and in a data pulse; at its issue it takes no sample. -/
theorem execTare_withDout {s t : State} (b : Bit) (hs : LineAction.sample ∉ actionsOf .tare s) (h : execTare s = .next t) :
    execTare (withDout b s) = .next (withDout b t) := by
  cases hc : s.eng.cur with
  | none =>
    rw [execTare_of_cur_none hc] at h
    rw [execTare_of_cur_none (s := withDout b s) hc]
    refine whenBuilt_commutes (withDout_eng b) (fun _ _ => rfl) h fun _ hb => ?_
    cases hb
    rfl
  | tare =>
    have hp : s.eng.seq ≠ .poll := fun hp => by simp [actionsOf, hc, hp] at hs
    simp only [actionsOf, hc, if_neg hp] at hs
    by_cases hm : s.eng.seq = .commit
    · rw [execTare_of_commit hc hm] at h
      cases h
      exact execTare_of_commit (s := withDout b s) hc hm
    · rw [execTare_of_ne_commit hc hp hm] at h
      exact (execTare_of_ne_commit (s := withDout b s) hc hp hm).trans (exchangeOn_withDout b hs h)
  | read =>
    rw [execTare_of_cur_read hc] at h
    cases h
    exact execTare_of_cur_read (s := withDout b s) hc

/-- Settles O40: IS_READY samples wherever its body runs, an accessor's body is over the engine, and the rest is said above. -/
theorem onlySamplesReadTheLine : Obligations.OnlySamplesReadTheLine := by
  intro s t i b hs h
  cases i with
  | new arg => exact execNew_withDout b h
  | isReady =>
    refine whenBuilt_commutes (withDout_eng b) (fun _ _ => rfl) h fun hw _ => ?_
    simp [actionsOf, whenAccepted_working hw] at hs
  | read => exact execRead_withDout b hs h
  | tare => exact execTare_withDout b hs h
  | getOffset | getLast =>
    refine whenBuilt_commutes (withDout_eng b) (fun _ _ => rfl) h fun _ hb => ?_
    cases hb
    rfl

end Sys2Proof.Machine

/-!
PROOFS. The pulses of an exchange (R35, R47, R60, R75): sample assembly bit by bit, what one pulse does in its three steps, and what a
train of them leaves.
-/

namespace Sys2Proof.Machine

/-! ### Sample assembly (R60) -/

theorem getLsbD_shiftIn (sh : Raw) (b : Bit) (i : Nat) :
    (shiftIn sh b).getLsbD i = if i < 1 then b.getLsbD i else (sh.extractLsb' 0 23).getLsbD (i - 1) :=
  BitVec.getLsbD_append

/-- The sample comes in at bit 0. -/
@[simp] theorem bitOf_shiftIn_zero (sh : Raw) (b : Bit) : bitOf (shiftIn sh b) 0 = b := by
  rw [bitOf, getLsbD_shiftIn]
  rcases bit_cases b with rfl | rfl <;> rfl

/-- The bits that were there move up by one; bit 23 falls out. -/
@[simp] theorem bitOf_shiftIn_succ {i : Nat} (h : i < 23) (sh : Raw) (b : Bit) :
    bitOf (shiftIn sh b) (i + 1) = bitOf sh i := by
  simp [bitOf, getLsbD_shiftIn, h]

/-- After `n` data pulses the sample of pulse `k` stands `n - k` places above the newest. -/
theorem bitOf_assemble (f : Nat → Bit) {n k : Nat} (hn : n ≤ 24) (hk : 1 ≤ k) (hkn : k ≤ n) :
    bitOf (assemble f n) (n - k) = f k := by
  induction n with
  | zero => omega
  | succ n ih =>
    rcases Nat.eq_or_lt_of_le hkn with rfl | hlt
    · simp [assemble]
    · rw [Nat.succ_sub (by omega), assemble, bitOf_shiftIn_succ (by omega)]
      exact ih (by omega) (by omega)

/-- Settles O6: the case of all 24 data pulses. -/
theorem sampleOfPulseIsItsBit : Obligations.SampleOfPulseIsItsBit :=
  fun f _ hk hle => bitOf_assemble f (Nat.le_refl 24) hk hle

/-- A raw sample is its 24 bits. -/
theorem raw_ext {x y : Raw} (h : ∀ j, j < 24 → bitOf x (23 - j) = bitOf y (23 - j)) : x = y := by
  refine BitVec.eq_of_getLsbD_eq fun i hi => ?_
  have hbit := h (23 - i) (by omega)
  rw [Nat.sub_sub_self (by omega : i ≤ 23)] at hbit
  exact BitVec.ofBool_eq_iff_eq.1 hbit

/-! ### One pulse (R75) -/

/-- A step in progress that has a line of the exchange to run runs it, and the gap passes. -/
theorem step_of_exchangeLine {s : State} {e : Engine} (hc : s.eng.cur ≠ .none)
    (h : exchangeLine (sample s) s.eng = some e) : step s = .next { s with eng := e, env := advance s.env } := by
  have hm : s.eng.seq ≠ .commit := fun hm => by simp [exchangeLine, hm] at h
  have hon := congrArg thenGap (exchangeOn_of_exchangeLine h)
  cases hcur : s.eng.cur with
  | none => exact absurd hcur hc
  | read =>
    rw [step_of_cur_read hcur, exec, execRead_of_ne_commit hcur hm]
    exact hon
  | tare =>
    rw [step_of_cur_tare hcur, exec, execTare_of_ne_commit hcur (seq_ne_poll_of_exchangeLine h) hm]
    exact hon

/-- What the engine samples after `n` gaps. -/
def sampleAfter (n : Nat) (s : State) : Bit :=
  sample { s with env := after n s.env }

/-- `s`, which is about to begin pulse `k`, three lines later. -/
def afterPulse (k : Nat) (s : State) : State :=
  { s with
    eng := { s.eng with
      sck := 0#1, sh := if k ≤ nData then shiftIn s.eng.sh (sampleAfter 1 s) else s.eng.sh, seq := afterLow s.eng.gain k }
    env := after 3 s.env }

/-- `HI(k)` drives the clock high (R75). -/
theorem step_hi {s : State} {k : Nat} (hc : s.eng.cur ≠ .none) (hq : s.eng.seq = .hi k) :
    step s = .next { s with eng := { s.eng with sck := 1#1, seq := .smp k }, env := advance s.env } :=
  step_of_exchangeLine hc (by simp [exchangeLine, hq, delay, drive])

/-- `SMP(k)` samples in a data pulse (R75). -/
theorem step_smp {s : State} {k : Nat} (hc : s.eng.cur ≠ .none) (hq : s.eng.seq = .smp k) :
    step s = .next { s with
      eng := { s.eng with sh := if k ≤ nData then shiftIn s.eng.sh (sample s) else s.eng.sh, seq := .lo k }
      env := advance s.env } :=
  step_of_exchangeLine hc (by simp [exchangeLine, hq])

/-- `LO(k)` drives the clock low (R75). -/
theorem step_lo {s : State} {k : Nat} (hc : s.eng.cur ≠ .none) (hq : s.eng.seq = .lo k) :
    step s = .next { s with eng := { s.eng with sck := 0#1, seq := afterLow s.eng.gain k }, env := advance s.env } :=
  step_of_exchangeLine hc (by simp [exchangeLine, hq, delay, drive])

/-- Pulse `k` is three steps. -/
theorem runFor_pulse {s : State} {k : Nat} (hc : s.eng.cur ≠ .none) (hq : s.eng.seq = .hi k) :
    runFor 3 s = .next (afterPulse k s) := by
  refine (runFor_step (step_hi hc hq) 2).trans ((runFor_step (step_smp ?_ rfl) 1).trans (runFor_step (step_lo ?_ rfl) 0))
  all_goals exact hc

/-! ### A train of pulses -/

/-- `s`, which is about to begin pulse 1, after `j` pulses. -/
def afterPulses : Nat → State → State
  | 0, s => s
  | j + 1, s => afterPulse (j + 1) (afterPulses j s)

@[simp] theorem afterPulses_env (j : Nat) (s : State) : (afterPulses j s).env = after (3 * j) s.env := by
  induction j with
  | zero => rfl
  | succ j ih => rw [Nat.mul_succ, after_add, ← ih]; rfl

@[simp] theorem afterPulses_cur (j : Nat) (s : State) : (afterPulses j s).eng.cur = s.eng.cur := by
  induction j with
  | zero => rfl
  | succ j ih => exact ih

@[simp] theorem afterPulses_gain (j : Nat) (s : State) : (afterPulses j s).eng.gain = s.eng.gain := by
  induction j with
  | zero => rfl
  | succ j ih => exact ih

/-- What is sampled depends on the outside alone. -/
theorem sampleAfter_afterPulses (n j : Nat) (s : State) : sampleAfter n (afterPulses j s) = sampleAfter (3 * j + n) s := by
  simp only [sampleAfter, sample, afterPulses_env, after_add]

/-- Before the train's end the next pulse is due (R21). -/
theorem afterPulses_seq {s : State} (hq : s.eng.seq = .hi 1) {j : Nat} (hj : j < pulses s.eng.gain) :
    (afterPulses j s).eng.seq = .hi (j + 1) := by
  cases j with
  | zero => exact hq
  | succ j => simp [afterPulses, afterPulse, afterLow, hj]

/-- The train runs: three steps a pulse. -/
theorem runFor_pulses {s : State} (hc : s.eng.cur ≠ .none) (hq : s.eng.seq = .hi 1) {j : Nat}
    (hj : j ≤ pulses s.eng.gain) : runFor (3 * j) s = .next (afterPulses j s) := by
  induction j with
  | zero => rfl
  | succ j ih =>
    rw [Nat.mul_succ, runFor_add (ih (by omega))]
    exact runFor_pulse (by rwa [afterPulses_cur]) (afterPulses_seq hq hj)

/-- The sample of data pulse `k` of the train that begins in `s`: `3 * (k - 1) + 1` gaps on. -/
def pulseSample (s : State) (k : Nat) : Bit :=
  sampleAfter (3 * (k - 1) + 1) s

/-- The data pulses assemble their samples in `sh` (R60). -/
theorem afterPulses_sh {s : State} (h0 : s.eng.sh = 0#24) {j : Nat} (hj : j ≤ nData) :
    (afterPulses j s).eng.sh = assemble (pulseSample s) j := by
  induction j with
  | zero => exact h0
  | succ j ih =>
    simp only [afterPulses, afterPulse, if_pos hj, ih (by omega), sampleAfter_afterPulses]
    rfl

/-! ### The raw sample of an exchange (R47) -/

/-- Every train has its 24 data pulses. -/
theorem nData_le_pulses (gain : BitVec 2) : nData ≤ pulses gain :=
  Nat.le_add_right _ _

/-- The step that drives the clock high in data pulse `j + 1` leaves the engine about to take that pulse's sample. -/
theorem runFor_to_sample {s : State} (hc : s.eng.cur ≠ .none) (hq : s.eng.seq = .hi 1) {j : Nat} (hj : j < nData) :
    ∃ u, runFor (3 * j + 1) s = .next u ∧ u.eng.seq = .smp (j + 1) ∧ sample u = pulseSample s (j + 1) := by
  have hlt := Nat.lt_of_lt_of_le hj (nData_le_pulses s.eng.gain)
  have hhi := step_hi (by rwa [afterPulses_cur]) (afterPulses_seq hq hlt)
  exact ⟨_, (runFor_add (runFor_pulses hc hq hlt.le) 1).trans (runFor_step hhi 0), rfl, sampleAfter_afterPulses 1 j s⟩

/-- The samples of an exchange spell `raw` exactly when each is its bit of it. -/
theorem samplesSpell_iff {s : State} (hc : s.eng.cur ≠ .none) (hq : s.eng.seq = .hi 1) (raw : Raw) :
    SamplesSpell raw s ↔ ∀ j, j < 24 → pulseSample s (j + 1) = bitOf raw (23 - j) := by
  refine forall₂_congr fun j hj => ?_
  obtain ⟨u, hrun, hseq, hsample⟩ := runFor_to_sample hc hq hj
  constructor
  · rintro ⟨v, hv, -, hbit⟩
    cases hrun.symm.trans hv
    exact hsample.symm.trans hbit
  · exact fun hbit => ⟨u, hrun, hseq, hsample.trans hbit⟩

@[simp] theorem after_configured (n : Nat) (env : Env) : (after n env).configured = env.configured := by
  induction n generalizing env with
  | zero => rfl
  | succ n ih => exact ih (advance env)

/-- With the lines configured what is sampled is the level (R127). -/
theorem sampleAfter_of_configured {s : State} (h : LinesConfigured s) (n : Nat) : sampleAfter n s = levelAfter n s.env :=
  sample_of_configured ((after_configured n s.env).trans h)

/-- Settles O20: the raw is what the data pulses assemble; each sample is its bit of it, and 24 bits leave no other. -/
theorem everyExchangeDeliversOneRaw : Obligations.EveryExchangeDeliversOneRaw := by
  intro s hc hq h0
  have hbits : ∀ j, j < 24 → pulseSample s (j + 1) = bitOf (assemble (pulseSample s) 24) (23 - j) := by
    intro j hj
    rw [show 23 - j = 24 - (j + 1) by omega, bitOf_assemble _ (Nat.le_refl 24) (by omega) hj]
  refine ⟨assemble (pulseSample s) 24, (samplesSpell_iff hc hq _).2 hbits, fun raw' hraw' => raw_ext fun j hj => ?_,
    ⟨_, runFor_pulses hc hq (nData_le_pulses _), afterPulses_sh h0 (Nat.le_refl nData)⟩, fun hl env henv j hj => ?_⟩
  · exact ((samplesSpell_iff hc hq raw').1 hraw' j hj).symm.trans (hbits j hj)
  · calc levelAfter (3 * j + 2) env
        = levelAfter (3 * j + 1) s.env := by rw [henv]; rfl
      _ = pulseSample s (j + 1) := (sampleAfter_of_configured hl _).symm
      _ = bitOf (assemble (pulseSample s) 24) (23 - j) := hbits j hj

end Sys2Proof.Machine

/-!
PROOFS. The command word (R54, R55, R63 to R66): a word is its two fields, and `decode` asks of them exactly what `encode` writes there.
-/

namespace Sys2Proof.Machine

/-! ### The two fields of a word (R54) -/

@[simp] theorem opField_encode (i : Instr) : opField (encode i) = opOf i :=
  BitVec.extractLsb'_append_eq_left

@[simp] theorem argField_encode (i : Instr) : argField (encode i) = argOf i :=
  BitVec.extractLsb'_append_eq_right

/-- The two fields cover the word. -/
theorem opField_append_argField (c : Command) : opField c ++ argField c = c :=
  (BitVec.extractLsb'_append_extractLsb'_eq_extractLsb' rfl).trans BitVec.extractLsb'_eq_self

theorem eq_encode_iff (c : Command) (i : Instr) : c = encode i ↔ opField c = opOf i ∧ argField c = argOf i := by
  constructor
  · rintro rfl
    exact ⟨opField_encode i, argField_encode i⟩
  · rintro ⟨hop, harg⟩
    rw [← opField_append_argField c, hop, harg, encode]

/-! ### What the decoder asks of them (R55, R63, R64) -/

theorem plain_eq_instr_iff (c : Command) (i j : Instr) : plain c j = .instr i ↔ argField c = 0#8 ∧ j = i := by
  unfold plain
  split <;> simp_all

/-- Each row of R55's table wants its own `op`, and of `arg` what the row's operation says. -/
theorem decode_eq_instr_iff (c : Command) (i : Instr) :
    decode c = .instr i ↔ opField c = opOf i ∧ argField c = argOf i := by
  constructor
  · intro h
    unfold decode at h
    split at h
    · next hop =>
      cases h
      exact ⟨hop, rfl⟩
    iterate 5
      split at h
      · next hop =>
        obtain ⟨harg, rfl⟩ := (plain_eq_instr_iff c _ _).1 h
        exact ⟨hop, harg⟩
    cases h
  · rintro ⟨hop, harg⟩
    cases i <;> simp_all [decode, plain, opOf, argOf]

/-- Settles O1: both sides say what the two fields of the word are. -/
theorem decodeInvertsEncode : Obligations.DecodeInvertsEncode := fun c i =>
  (decode_eq_instr_iff c i).trans (eq_encode_iff c i).symm

@[simp] theorem decode_encode (i : Instr) : decode (encode i) = .instr i :=
  (decodeInvertsEncode _ i).2 rfl

/-- Settles O2: each word of the table is the encoding of its operation. -/
theorem tableWordsDecode : Obligations.TableWordsDecode :=
  ⟨decode_encode (.new 128#8), decode_encode (.new 64#8), decode_encode (.new 32#8), decode_encode .isReady,
    decode_encode .read, decode_encode .tare, decode_encode .getOffset, decode_encode .getLast⟩

/-- `op` 0b000 is NEW's, whatever `arg` is (R65). -/
theorem decode_of_opField_zero {c : Command} (h : opField c = 0#3) : decode c = .instr (.new (argField c)) :=
  (decode_eq_instr_iff c _).2 ⟨h, rfl⟩

/-- NEW is the operation with `op` 0b000. -/
theorem opOf_eq_zero_iff (i : Instr) : opOf i = 0#3 ↔ ∃ arg, i = .new arg := by
  cases i <;> simp [opOf]

/-- An `op` that is neither NEW's nor reserved is that of an operation without an operand. -/
theorem opOf_surjective {op : BitVec 3} (h0 : op ≠ 0#3) (h6 : op ≠ 6#3) (h7 : op ≠ 7#3) :
    ∃ i, opOf i = op ∧ argOf i = 0#8 := by
  have hop : op = 1#3 ∨ op = 2#3 ∨ op = 3#3 ∨ op = 4#3 ∨ op = 5#3 := by
    revert op
    decide
  rcases hop with rfl | rfl | rfl | rfl | rfl
  · exact ⟨.isReady, rfl, rfl⟩
  · exact ⟨.read, rfl, rfl⟩
  · exact ⟨.tare, rfl, rfl⟩
  · exact ⟨.getOffset, rfl, rfl⟩
  · exact ⟨.getLast, rfl, rfl⟩

/-- The words of R63 and R64 are no operations. -/
theorem decode_ne_instr {c : Command}
    (h : opField c = 6#3 ∨ opField c = 7#3 ∨
      (opField c ≠ 0#3 ∧ opField c ≠ 6#3 ∧ opField c ≠ 7#3 ∧ argField c ≠ 0#8)) (i : Instr) :
    decode c ≠ .instr i := by
  intro hd
  obtain ⟨hop, harg⟩ := (decode_eq_instr_iff c i).1 hd
  rw [hop, harg] at h
  cases i <;> simp [opOf, argOf] at h

/-- The three gain settings (R62). -/
theorem gainPulses_isSome_iff (arg : BitVec 8) :
    (gainPulses arg).isSome = true ↔ arg = 128#8 ∨ arg = 64#8 ∨ arg = 32#8 := by
  revert arg
  decide

/-- Settles O3: a legal word is the encoding of a NEW with one of the three gains or of one of the other five operations. -/
theorem exactlyEightLegalCommands : Obligations.ExactlyEightLegalCommands := by
  intro c
  simp only [decodeInvertsEncode c _]
  constructor
  · rintro ⟨i, rfl, hwf⟩
    cases i with
    | new arg => rcases (gainPulses_isSome_iff arg).1 hwf with rfl | rfl | rfl <;> decide
    | isReady => decide
    | read => decide
    | tare => decide
    | getOffset => decide
    | getLast => decide
  · intro hc
    simp only [List.mem_cons, List.not_mem_nil, or_false] at hc
    rcases hc with rfl | rfl | rfl | rfl | rfl | rfl | rfl | rfl
    · exact ⟨.new 32#8, rfl, rfl⟩
    · exact ⟨.new 64#8, rfl, rfl⟩
    · exact ⟨.new 128#8, rfl, rfl⟩
    · exact ⟨.isReady, rfl, rfl⟩
    · exact ⟨.read, rfl, rfl⟩
    · exact ⟨.tare, rfl, rfl⟩
    · exact ⟨.getOffset, rfl, rfl⟩
    · exact ⟨.getLast, rfl, rfl⟩

end Sys2Proof.Machine

/-!
PROOFS. The checks of R69 on a command at the port of an idle engine: a word that is no operation is answered `ERR_OP` (R63, R64), and an
operation answers an error exactly when one of its own checks fails.
-/

namespace Sys2Proof.Machine

/-! ### A word that is no operation (R63, R64, R97) -/

theorem takeCommand_of_not_instr {c : Command} (h : ∀ i, decode c ≠ .instr i) (s : State) :
    takeCommand c s = .badCommand s := by
  rcases takeCommand_cases c s with ⟨i, hd, -⟩ | hb
  · exact absurd hd (h i)
  · exact hb

theorem turn_of_select_badCommand {s u : State} (h : select s = .badCommand u) (hi : Idle u) : turn s = reject .op u := by
  simp only [turn, h, accept_idle hi]

theorem turn_of_not_instr_main {s : State} {c : Command} {r : List Command} (hd : ∀ i, decode c ≠ .instr i) (hi : Idle s)
    (hm : s.port.ctx = .main) (he : entersHandler s = false) (hq : s.env.cmds = c :: r) :
    turn s = reject .op (withCmds r s) :=
  turn_of_select_badCommand ((select_main hi.1 hm he hq).trans (takeCommand_of_not_instr hd _)) hi

theorem turn_of_not_instr_irq {s : State} {c : Command} {r : List HandlerStep} (hd : ∀ i, decode c ≠ .instr i) (hi : Idle s)
    (hx : s.port.ctx = .irq) (ht : s.port.todo = .issue c :: r) : turn s = reject .op (withTodo r s) := by
  refine turn_of_select_badCommand ?_ hi
  rw [select_irq hi.1 hx, handlerTurn, ht]
  exact takeCommand_of_not_instr hd _

/-- Settles O4: from either context the issuer gives the word up, and the engine answers `ERR_OP`. -/
theorem reservedCommandsAnswerErrOp : Obligations.ReservedCommandsAnswerErrOp := by
  intro c s hi hc
  have hd := decode_ne_instr hc
  exact ⟨fun r hm he hq => congrArg thenGap (turn_of_not_instr_main hd hi hm he hq),
    fun r hx ht => congrArg thenGap (turn_of_not_instr_irq hd hi hx ht)⟩

/-! ### An operation at the port -/

theorem turn_atPort_of_not_instr {c : Command} (hd : ∀ i, decode c ≠ .instr i) (s : State) :
    turn (atPort c s) = reject .op (withCmds s.env.cmds (atPort c s)) :=
  turn_of_select_badCommand ((select_atPort c s).trans (takeCommand_of_not_instr hd _)) ⟨rfl, rfl⟩

theorem turn_atPort_of_instr {c : Command} {i : Instr} (hd : decode c = .instr i) (s : State) :
    turn (atPort c s) = exec i (withCmds s.env.cmds (atPort c s)) := by
  simp only [turn, select_atPort, takeCommand_of_decode hd, noteBreach_main i (withCmds s.env.cmds (atPort c s)) rfl]

/-! ### When an operation is rejected (R69) -/

/-- R91: the check of NEW that comes first. -/
theorem execNew_built {s : State} (hi : Idle s) (hc : s.eng.constructed = true) (arg : BitVec 8) :
    execNew arg s = reject .state s := by
  simp [execNew, accept_idle hi, hc]

/-- R90: the check of NEW that comes second. -/
theorem execNew_of_no_gain {s : State} {arg : BitVec 8} (hi : Idle s) (hc : s.eng.constructed = false)
    (hg : gainPulses arg = none) : execNew arg s = reject .gain s := by
  simp [execNew, accept_idle hi, hc, hg]

/-- An operation that only answers data answers no error on a constructed engine. -/
theorem answer_error {d : Word} {s t : State} {e : ErrName} (hi : Idle s) (h : whenBuilt s (respond d s) = .next t)
    (he : t.port.resp = some (errResponse e)) : s.eng.constructed = false := by
  rcases whenBuilt_cases h with ⟨-, hb⟩ | ⟨-, hc, -⟩ | ⟨hn, -⟩
  · cases hb
    exact absurd (Option.some.inj he) (okResponse_ne_errResponse d e)
  · exact hc
  · exact absurd hi.1 hn

theorem execNew_error {arg : BitVec 8} {s t : State} {e : ErrName} (hi : Idle s) (h : execNew arg s = .next t)
    (he : t.port.resp = some (errResponse e)) : s.eng.constructed = true ∨ gainPulses arg = none := by
  rcases execNew_cases h with ⟨-, hc, -⟩ | ⟨-, -, hg, -⟩ | ⟨g, -, -, -, rfl⟩ | ⟨hn, -⟩
  · exact .inl hc
  · exact .inr hg
  · exact absurd (Option.some.inj he) (okResponse_ne_errResponse 0#32 e)
  · exact absurd hi.1 hn

theorem execRead_error {s t : State} {e : ErrName} (hi : Idle s) (h : execRead s = .next t)
    (he : t.port.resp = some (errResponse e)) : s.eng.constructed = false := by
  have hcur := hi.1
  rcases execRead_cases h with
    ⟨hc, -⟩ | ⟨hc, -⟩ | ⟨-, -, rfl⟩ | ⟨-, -, rfl | ⟨d, rfl⟩⟩ | ⟨-, hc, -⟩ | ⟨hc, -⟩
  · simp [hcur] at hc
  · simp [hcur] at hc
  · cases he
  · cases he
  · exact absurd (Option.some.inj he) (okResponse_ne_errResponse d e)
  · exact hc
  · simp [hcur] at hc

theorem execTare_error {s t : State} {e : ErrName} (hi : Idle s) (h : execTare s = .next t)
    (he : t.port.resp = some (errResponse e)) : s.eng.constructed = false := by
  rw [execTare_of_cur_none hi.1] at h
  rcases whenBuilt_cases h with ⟨-, hb⟩ | ⟨-, hc, -⟩ | ⟨hn, -⟩
  · cases hb
    cases he
  · exact hc
  · exact absurd hi.1 hn

/-- An operation that answers an error failed one of its own checks. -/
theorem exec_error {i : Instr} {s t : State} {e : ErrName} (hi : Idle s) (h : exec i s = .next t)
    (he : t.port.resp = some (errResponse e)) :
    (∃ arg, i = .new arg ∧ (s.eng.constructed = true ∨ gainPulses arg = none)) ∨
    ((∀ arg, i ≠ .new arg) ∧ s.eng.constructed = false) := by
  cases i with
  | new arg => exact .inl ⟨arg, rfl, execNew_error hi h he⟩
  | isReady => exact .inr ⟨by simp, answer_error hi h he⟩
  | read => exact .inr ⟨by simp, execRead_error hi h he⟩
  | tare => exact .inr ⟨by simp, execTare_error hi h he⟩
  | getOffset => exact .inr ⟨by simp, answer_error hi h he⟩
  | getLast => exact .inr ⟨by simp, answer_error hi h he⟩

/-- An operation that passes its checks is not rejected. -/
theorem exec_ne_reject {i : Instr} {s : State} (hi : Idle s)
    (hpass : (s.eng.constructed = true ∧ ∀ arg, i ≠ .new arg) ∨
      (s.eng.constructed = false ∧ ∃ arg, i = .new arg ∧ (gainPulses arg).isSome = true)) (e : ErrName) :
    exec i s ≠ reject e s := by
  intro h
  rcases exec_error hi h rfl with ⟨arg, rfl, hc | hg⟩ | ⟨hnew, hc⟩
  · simp [hc] at hpass
  · simp [hg] at hpass
  · simp [hc, hnew] at hpass

/-- Settles O5: the first five clauses are the checks in their order, and an operation that passes them is not rejected. -/
theorem checksReportTheFirstFailure : Obligations.ChecksReportTheFirstFailure := by
  intro c s
  have hidle : Idle (withCmds s.env.cmds (atPort c s)) := ⟨rfl, rfl⟩
  refine ⟨fun h => ?_, fun h => ?_, ?_, ?_, ?_, ?_⟩
  · exact turn_atPort_of_not_instr (decode_ne_instr (or_assoc.1 (.inl h))) s
  · exact turn_atPort_of_not_instr (decode_ne_instr (.inr (.inr h))) s
  · rintro ⟨hop, hc⟩
    exact (turn_atPort_of_instr (decode_of_opField_zero hop) s).trans (execNew_built hidle hc _)
  · rintro ⟨h0, h6, h7, harg, hc⟩
    obtain ⟨i, hop, hi⟩ := opOf_surjective h0 h6 h7
    have hnew : ∀ arg, i ≠ .new arg := fun arg hi => h0 (hop.symm.trans ((opOf_eq_zero_iff i).2 ⟨arg, hi⟩))
    have hd := (decode_eq_instr_iff c i).2 ⟨hop.symm, harg.trans hi.symm⟩
    exact (turn_atPort_of_instr hd s).trans (othersRejectedBeforeConstruction _ i hidle hc hnew).1
  · rintro ⟨hop, hc, h128, h64, h32⟩
    have hg : gainPulses (argField c) = none := by
      rw [← Option.not_isSome_iff_eq_none, gainPulses_isSome_iff]
      simp [h128, h64, h32]
    exact (turn_atPort_of_instr (decode_of_opField_zero hop) s).trans (execNew_of_no_gain hidle hc hg)
  · intro i hd hpass
    obtain ⟨hop, harg⟩ := (decode_eq_instr_iff c i).1 hd
    simp only [hop, ne_eq, opOf_eq_zero_iff] at hpass
    refine ⟨turn_atPort_of_instr hd s, exec_ne_reject hidle ?_⟩
    rcases hpass with ⟨hc, hnew⟩ | ⟨hc, ⟨arg, rfl⟩, hgain⟩
    · exact .inl ⟨hc, not_exists.1 hnew⟩
    · rw [harg] at hgain
      exact .inr ⟨hc, arg, rfl, (gainPulses_isSome_iff arg).2 hgain⟩

end Sys2Proof.Machine

/-!
PROOFS. The raw sample and its correction as integers (R61, R78).
-/

namespace Sys2Proof.Machine

/-- Sign extension keeps the field's value as a two's complement number. -/
theorem toInt_sext24 (sh : Raw) : (sext24 sh).toInt = sh.toInt := by
  rw [sext24_eq_signExtend, BitVec.toInt_signExtend_of_le (by decide)]

/-- Settles O7: a two's complement number of 24 bits is its unsigned value, less 2^24 from 2^23 on. -/
theorem signExtensionSubtractsTwoTo24 : Obligations.SignExtensionSubtractsTwoTo24 := by
  refine ⟨fun sh => ⟨?_, rawRange_sext24 sh⟩, by decide, by decide, by decide⟩
  rw [toInt_sext24, BitVec.toInt_eq_toNat_cond]
  split <;> split <;> omega

/-- The difference of two raw samples' values fits a word. -/
theorem toInt_sub_of_rawRange {v w : Word} (hv : RawRange v) (hw : RawRange w) : (v - w).toInt = v.toInt - w.toInt := by
  obtain ⟨hv0, hv1⟩ := hv
  obtain ⟨hw0, hw1⟩ := hw
  rw [BitVec.toInt_sub]
  exact Int.bmod_eq_of_le (by omega) (by omega)

/-- Settles O9: the raw sample and `offset` are both raw samples' values. -/
theorem subtractionNeverWraps : Obligations.SubtractionNeverWraps := by
  intro sh offset ho
  have hraw := rawRange_sext24 sh
  have hexact : (corrected sh offset).toInt = (sext24 sh).toInt - offset.toInt := toInt_sub_of_rawRange hraw ho
  obtain ⟨ho0, ho1⟩ := ho
  obtain ⟨hr0, hr1⟩ := hraw
  exact ⟨hexact, by omega, by omega⟩

end Sys2Proof.Machine

/-!
PROOFS. READ and TARE as whole operations (R73 to R76, R81, R82): the lines of a pulse, the train to its commit step with the raw sample in
`sh`, and the run from the issue to the response.
-/

namespace Sys2Proof.Machine

/-! ### IS_READY (R72) -/

/-- Settles O15: on a working engine the answer is that of the one sample. -/
theorem isReadyAnswersTheLevel : Obligations.IsReadyAnswersTheLevel := by
  intro s hw
  have hx : exec .isReady s = respond (boolWord (isLow (sample s))) s := whenBuilt_working hw _
  refine ⟨fun hd => ?_, fun hd => ?_, sample_of_configured, whenAccepted_working hw _⟩
  · rw [hx, hd]
    rfl
  · rw [hx, hd]
    rfl

/-! ### The lines of a pulse (R75) -/

theorem exchangeLine_hi {e : Engine} {k : Nat} (h : e.seq = .hi k) (b : Bit) :
    exchangeLine b e = some { e with sck := 1#1, seq := .smp k } := by
  simp [exchangeLine, h, delay, drive]

theorem exchangeLine_smp_of_le {e : Engine} {k : Nat} (h : e.seq = .smp k) (hk : k ≤ nData) (b : Bit) :
    exchangeLine b e = some { e with sh := shiftIn e.sh b, seq := .lo k } := by
  simp [exchangeLine, h, hk]

theorem exchangeLine_smp_of_lt {e : Engine} {k : Nat} (h : e.seq = .smp k) (hk : nData < k) (b : Bit) :
    exchangeLine b e = some { e with seq := .lo k } := by
  simp [exchangeLine, h, Nat.not_le.2 hk]

theorem exchangeLine_lo {e : Engine} {k : Nat} (h : e.seq = .lo k) (b : Bit) :
    exchangeLine b e = some { e with sck := 0#1, seq := afterLow e.gain k } := by
  simp [exchangeLine, h, delay, drive]

/-- Before the last pulse another one follows (R21). -/
theorem afterLow_of_lt {gain : BitVec 2} {k : Nat} (h : k < pulses gain) : afterLow gain k = .hi (k + 1) :=
  if_pos h

/-- After the last pulse the commit step follows (R21). -/
theorem afterLow_of_le {gain : BitVec 2} {k : Nat} (h : pulses gain ≤ k) : afterLow gain k = .commit :=
  if_neg (Nat.not_lt.2 h)

/-- The operation in progress runs the line of the exchange that is due. -/
theorem exec_of_exchangeLine {s : State} {i : Instr} {e : Engine}
    (h : (i = .read ∧ s.eng.cur = .read) ∨ (i = .tare ∧ s.eng.cur = .tare))
    (hl : exchangeLine (sample s) s.eng = some e) : exec i s = .next { s with eng := e } := by
  have hm : s.eng.seq ≠ .commit := fun hm => by simp [exchangeLine, hm] at hl
  rcases h with ⟨rfl, hc⟩ | ⟨rfl, hc⟩
  · exact (execRead_of_ne_commit hc hm).trans (exchangeOn_of_exchangeLine hl)
  · exact (execTare_of_ne_commit hc (seq_ne_poll_of_exchangeLine hl) hm).trans (exchangeOn_of_exchangeLine hl)

/-- Settles O18: the line that is due at each position of the pulse. -/
theorem exchangeLinesOfThePulse : Obligations.ExchangeLinesOfThePulse := by
  intro s i k hown
  have hlow {q : Seq} (hq : s.eng.seq = .lo k) (ha : afterLow s.eng.gain k = q) :
      exec i s = .next { s with eng := { s.eng with sck := 0#1, seq := q } } :=
    exec_of_exchangeLine hown (ha ▸ exchangeLine_lo hq _)
  exact ⟨fun hq => exec_of_exchangeLine hown (exchangeLine_hi hq _),
    fun hq hk => exec_of_exchangeLine hown (exchangeLine_smp_of_le hq hk _), sample_of_configured,
    fun hq hk => exec_of_exchangeLine hown (exchangeLine_smp_of_lt hq hk _),
    fun hq hk => hlow hq (afterLow_of_lt hk), fun hq hk => hlow hq (afterLow_of_le hk)⟩

/-! ### The train to its commit step (R75) -/

/-- `s`, at whose gap an exchange begins that delivers `raw`, after that gap and the last pulse. -/
def atCommit (raw : Raw) (s : State) : State :=
  { s with
    eng := { s.eng with sh := raw, sck := 0#1, seq := .commit }
    env := after (3 * pulses s.eng.gain + 1) s.env }

/-- What pulses do beside `sh`: they drive the clock low at their end and move the sequencer. -/
theorem afterPulses_frame (j : Nat) (s : State) :
    afterPulses (j + 1) s = { s with
      eng := { s.eng with
        sck := 0#1, sh := (afterPulses (j + 1) s).eng.sh, seq := afterLow s.eng.gain (j + 1) }
      env := after (3 * (j + 1)) s.env } := by
  induction j with
  | zero => rfl
  | succ j ih =>
    have henv := afterPulses_env (j + 2) s
    rw [afterPulses] at henv ⊢
    rw [ih] at henv ⊢
    simp only [afterPulse] at henv ⊢
    rw [henv]

/-- The gain pulses leave the assembled sample (R58). -/
theorem afterPulses_sh_of_nData_le {j : Nat} (h : nData ≤ j) (s : State) :
    (afterPulses j s).eng.sh = (afterPulses nData s).eng.sh := by
  induction j, h using Nat.le_induction with
  | base => rfl
  | succ j hj ih => simpa [afterPulses, afterPulse, Nat.not_le.2 (Nat.lt_succ_of_le hj)] using ih

/-- What the data pulses of an exchange that delivers `raw` assemble is `raw`: no other raw sample is delivered. -/
theorem afterPulses_sh_of_delivers {s : State} {raw : Raw} (hc : s.eng.cur ≠ .none) (hq : s.eng.seq = .hi 1)
    (h0 : s.eng.sh = 0#24) (hl : LinesConfigured s) (hd : Delivers raw s.env) :
    (afterPulses nData (passGap s)).eng.sh = raw := by
  obtain ⟨raw', -, -, ⟨t, hrun, hsh⟩, hdel⟩ := everyExchangeDeliversOneRaw (passGap s) hc hq h0
  cases (runFor_pulses (s := passGap s) hc hq (nData_le_pulses _)).symm.trans hrun
  exact hsh.trans (raw_ext fun j hj => (hdel hl s.env rfl j hj).symm.trans (hd j hj))

/-- An exchange that delivers `raw` comes to its commit step with `raw` in `sh`. -/
theorem runFor_exchange {s : State} {raw : Raw} (hc : s.eng.cur ≠ .none) (hq : s.eng.seq = .hi 1)
    (h0 : s.eng.sh = 0#24) (hl : LinesConfigured s) (hd : Delivers raw s.env) :
    runFor (3 * pulses s.eng.gain) (passGap s) = .next (atCommit raw s) := by
  have hsh : (afterPulses (pulses s.eng.gain) (passGap s)).eng.sh = raw :=
    (afterPulses_sh_of_nData_le (nData_le_pulses _) _).trans (afterPulses_sh_of_delivers hc hq h0 hl hd)
  have hrun : runFor (3 * pulses s.eng.gain) (passGap s) = .next (afterPulses (pulses s.eng.gain) (passGap s)) :=
    runFor_pulses (s := passGap s) hc hq (Nat.le_refl _)
  obtain ⟨j, hj⟩ := Nat.exists_eq_succ_of_ne_zero (Nat.ne_of_gt (one_le_pulses s.eng.gain))
  rw [hrun, atCommit]
  rw [hj] at hsh ⊢
  rw [afterPulses_frame, hsh, passGap_eng, afterLow_of_le hj.le]
  rfl

/-! ### READ (R73, R76) -/

/-- Settles O22: at `COMMIT` READ runs its commit step. -/
theorem readCommits : Obligations.ReadCommits := fun _ hc hm => execRead_of_commit hc hm

/-- The exchange of a READ in progress, and its commit step. -/
theorem runFor_read {s : State} {raw : Raw} (hc : s.eng.cur = .read) (hq : s.eng.seq = .hi 1)
    (h0 : s.eng.sh = 0#24) (hl : LinesConfigured s) (hd : Delivers raw s.env) :
    runFor (exchangeSteps s.eng.gain) (passGap s) = .next
      { eng := { s.eng with
          lastValue := sext24 raw - s.eng.offset, sh := raw, sck := 0#1, cur := .none, seq := .idle }
        port := { s.port with resp := some (0#2 ++ (sext24 raw - s.eng.offset)) }
        env := after (exchangeSteps s.eng.gain + 1) s.env } := by
  have hcommit := (step_of_cur_read (s := atCommit raw s) hc).trans (congrArg thenGap (readCommits _ hc rfl))
  rw [exchangeSteps, runFor_add (runFor_exchange (by simp [hc]) hq h0 hl hd), runFor_step hcommit, after_succ]
  rfl

theorem issueAndRun_of_exec {s t : State} {i : Instr} (h : exec i s = .next t) (k : Nat) :
    issueAndRun i k s = runFor k (passGap t) := by
  simp [issueAndRun, h]

/-- A READ that starts its exchange, ready or not, runs to its response. -/
theorem issueAndRun_read {s : State} {p : Port} {raw : Raw} (hw : Working s) (hl : LinesConfigured s) (hd : Delivers raw s.env)
    (hx : exec .read s = .next { s with eng := { s.eng with cur := .read, sh := 0#24, seq := .hi 1 }, port := p }) :
    issueAndRun .read (exchangeSteps s.eng.gain) s = .next
      { eng := { s.eng with lastValue := sext24 raw - s.eng.offset, sh := raw, sck := 0#1 }
        port := { p with resp := some (0#2 ++ (sext24 raw - s.eng.offset)) }
        env := after (exchangeSteps s.eng.gain + 1) s.env } := by
  obtain ⟨⟨hcur, hseq⟩, -⟩ := hw
  have hrun := runFor_read (s := { s with eng := { s.eng with cur := .read, sh := 0#24, seq := .hi 1 }, port := p })
    rfl rfl rfl hl hd
  simp only [hcur, hseq]
  exact (issueAndRun_of_exec hx _).trans hrun

/-- On a working engine whose gate samples low the issue starts the exchange (R73). -/
theorem execRead_of_sample_low {s : State} (hw : Working s) (hd : sample s = 0#1) :
    exec .read s = .next (beginExchange .read s) := by
  simp [exec, execRead_of_cur_none hw.1.1, whenBuilt_working hw, hd]

/-- On a working engine whose gate samples high the issue is not ready (R74). -/
theorem execRead_of_sample_high {s : State} (hw : Working s) (hd : sample s = 1#1) : exec .read s = readNotReady s := by
  simp [exec, execRead_of_cur_none hw.1.1, whenBuilt_working hw, hd]

/-- Settles O23: the issue starts the exchange, which delivers `raw` to the commit step. -/
theorem readRunsToItsResponse : Obligations.ReadRunsToItsResponse := by
  intro s raw hw hl hlow hd
  have hx := execRead_of_sample_low hw ((sample_of_configured hl).trans hlow)
  exact ⟨hx, raw, issueAndRun_read (p := { s.port with resp := none }) hw hl hd hx⟩

/-- Settles O24: the free value chooses between the no-op and the exchange, and both begin with the mark. -/
theorem notReadyReadIsMarked : Obligations.NotReadyReadIsMarked := by
  intro s hw hl hhigh
  have hx := execRead_of_sample_high hw ((sample_of_configured hl).trans hhigh)
  cases hu : Config.ungatedRead s.env.tick with
  | false => exact .inl ⟨Config.anyI32 s.env.tick, hx.trans (if_neg (by simp [hu]))⟩
  | true =>
    have hbegin := hx.trans (if_pos hu)
    exact .inr ⟨hbegin, fun raw hd => ⟨raw, issueAndRun_read hw hl hd hbegin⟩⟩

/-! ### TARE (R81, R82) -/

/-- On a working engine TARE starts waiting, whatever the line (R81). -/
theorem execTare_of_working {s : State} (hw : Working s) : exec .tare s = .next (beginTare s) := by
  rw [exec, execTare_of_cur_none hw.1.1, whenBuilt_working hw]

/-- At `POLL` TARE polls (R82). -/
theorem execTare_of_poll {s : State} (hc : s.eng.cur = .tare) (hp : s.eng.seq = .poll) : execTare s = pollOnce s := by
  simp [execTare, hc, hp]

/-- A poll that sees the line high leaves TARE where it is (R82). -/
theorem step_of_poll_high {s : State} (hc : s.eng.cur = .tare) (hp : s.eng.seq = .poll) (hd : sample s = 1#1) :
    step s = .next (passGap s) := by
  simp [step_of_cur_tare hc, exec, execTare_of_poll hc hp, pollOnce, hd]

/-- A poll that sees the line low starts the exchange (R82). -/
theorem step_of_poll_low {s : State} (hc : s.eng.cur = .tare) (hp : s.eng.seq = .poll) (hd : sample s = 0#1) :
    step s = .next (passGap (beginExchange .tare s)) := by
  simp [step_of_cur_tare hc, exec, execTare_of_poll hc hp, pollOnce, hd]

/-- While the line stays high nothing but the outside changes (R82). -/
theorem runFor_polls {s : State} {n : Nat} (hc : s.eng.cur = .tare) (hp : s.eng.seq = .poll)
    (hhigh : ∀ j, j < n → sampleAfter j s = 1#1) : runFor n s = .next { s with env := after n s.env } := by
  induction n with
  | zero => rfl
  | succ n ih =>
    have hpoll := step_of_poll_high (s := { s with env := after n s.env }) hc hp (hhigh n (Nat.lt_succ_self n))
    rw [runFor_add (ih fun j hj => hhigh j (by omega)), runFor_step hpoll, after_succ]
    rfl

/-- The exchange of a TARE in progress, and its commit step. -/
theorem runFor_tare {s : State} {raw : Raw} (hc : s.eng.cur = .tare) (hq : s.eng.seq = .hi 1)
    (h0 : s.eng.sh = 0#24) (hl : LinesConfigured s) (hd : Delivers raw s.env) :
    runFor (exchangeSteps s.eng.gain) (passGap s) = .next
      { eng := { s.eng with
          offset := sext24 raw, lastValue := sext24 raw, sh := raw, sck := 0#1, cur := .none, seq := .idle }
        port := { s.port with resp := some 0#34 }
        env := after (exchangeSteps s.eng.gain + 1) s.env } := by
  have hcommit := (step_of_cur_tare (s := atCommit raw s) hc).trans (congrArg thenGap (execTare_of_commit hc rfl))
  rw [exchangeSteps, runFor_add (runFor_exchange (by simp [hc]) hq h0 hl hd), runFor_step hcommit, after_succ]
  rfl

/-- TARE from its issue to its response, after `n` polls that see the line high (R81 to R83). -/
theorem issueAndRun_tare {s : State} {raw : Raw} {n : Nat} (hw : Working s) (hl : LinesConfigured s)
    (hhigh : ∀ j, j < n → levelAfter (j + 1) s.env = 1#1) (hlow : levelAfter (n + 1) s.env = 0#1)
    (hd : Delivers raw (after (n + 1) s.env)) :
    issueAndRun .tare (n + 1 + exchangeSteps s.eng.gain) s = .next
      { eng := { s.eng with offset := sext24 raw, lastValue := sext24 raw, sh := raw, sck := 0#1 }
        port := { s.port with resp := some 0#34 }
        env := after (n + exchangeSteps s.eng.gain + 2) s.env } := by
  have hl' : LinesConfigured (passGap (beginTare s)) := hl
  have hwait := runFor_polls (s := passGap (beginTare s)) rfl rfl fun j hj =>
    (sampleAfter_of_configured hl' j).trans (hhigh j hj)
  have hstart := step_of_poll_low (s := { passGap (beginTare s) with env := after (n + 1) s.env }) rfl rfl
    ((sampleAfter_of_configured hl' n).trans hlow)
  have hrun := runFor_tare (s := beginExchange .tare { passGap (beginTare s) with env := after (n + 1) s.env })
    rfl rfl rfl ((after_configured (n + 1) s.env).trans hl) hd
  rw [issueAndRun_of_exec (execTare_of_working hw), Nat.add_assoc, runFor_add hwait, Nat.add_comm 1]
  obtain ⟨⟨hcur, hseq⟩, -⟩ := hw
  have hgaps : n + exchangeSteps s.eng.gain + 2 = n + 1 + (exchangeSteps s.eng.gain + 1) := by omega
  simp only [hcur, hseq, hgaps, after_add (n + 1)]
  exact (runFor_step hstart _).trans hrun

/-- Settles O32: the TARE leaves `r0` in `offset`, and the difference of two raw samples' values fits a word. -/
theorem tareThenReadCancels : Obligations.TareThenReadCancels := by
  intro s r0 n hw hl hhigh hlow hd
  refine ⟨_, issueAndRun_tare hw hl hhigh hlow hd, fun port env r1 hl' hlow' hd' => ?_⟩
  obtain ⟨-, sh', hrun⟩ := readRunsToItsResponse
    { eng := { s.eng with offset := sext24 r0, lastValue := sext24 r0, sh := r0, sck := 0#1 }, port := port, env := env }
    r1 hw hl' hlow' hd'
  refine ⟨_, hrun, rfl, toInt_sub_of_rawRange (rawRange_sext24 r1) (rawRange_sext24 r0), ?_⟩
  rintro rfl
  exact BitVec.sub_self _

end Sys2Proof.Machine

/-!
PROOFS. The exchange on the lines (R75, R113): what one pulse does on them, and the trace of the whole train.
-/

namespace Sys2Proof.Machine

/-! ### Traces -/

/-- A trace goes on from its first step. -/
theorem lineTrace_step {s t : State} (h : step s = .next t) (n : Nat) :
    lineTrace (n + 1) s = stepActions s ++ lineTrace n t := by
  simp [lineTrace, h]

/-- Traces compose as runs do. -/
theorem lineTrace_add {m : Nat} {s t : State} (h : runFor m s = .next t) (n : Nat) :
    lineTrace (m + n) s = lineTrace m s ++ lineTrace n t := by
  induction m generalizing s with
  | zero =>
    cases h
    simp [lineTrace]
  | succ m ih =>
    obtain ⟨u, hu, hr⟩ := runFor_succ_eq_next h
    rw [Nat.add_right_comm, lineTrace_step hu, lineTrace_step hu, ih hr, List.append_assoc]

theorem copies_succ (n : Nat) (p : List LineAction) : copies (n + 1) p = copies n p ++ p := by
  simp [copies, List.replicate_succ']

theorem count_copies (a : LineAction) (n : Nat) (p : List LineAction) : (copies n p).count a = n * p.count a := by
  simp [copies, List.count_flatten]

/-! ### The train -/

/-- An operation in progress does on the lines what its line of the exchange lists, but at `POLL`. -/
theorem stepActions_of_busy {s : State} (hc : s.eng.cur ≠ .none) (hp : s.eng.seq ≠ .poll) :
    stepActions s = exchangeActions s.eng.seq := by
  cases hcur : s.eng.cur with
  | none => exact absurd hcur hc
  | read => simp [stepActions, select_read hcur, actionsOf, hcur]
  | tare => simp [stepActions, select_tare hcur, actionsOf, hcur, hp]

/-- What pulse `k` does on the lines: no sample in a gain pulse (R58). -/
def pulseActions (k : Nat) : List LineAction :=
  if k ≤ nData then dataPulse else gainPulse

theorem pulseActions_eq (k : Nat) :
    pulseActions k = exchangeActions (.hi k) ++ (exchangeActions (.smp k) ++ exchangeActions (.lo k)) := by
  by_cases hk : k ≤ nData
  · simp [pulseActions, exchangeActions, dataPulse, hk]
  · simp [pulseActions, exchangeActions, gainPulse, hk]

/-- A trace of a busy engine goes on from the line of the exchange at its position. -/
theorem lineTrace_of_busy {s t : State} (h : step s = .next t) (hc : s.eng.cur ≠ .none) {q : Seq} (hq : s.eng.seq = q)
    (hp : q ≠ .poll) (n : Nat) : lineTrace (n + 1) s = exchangeActions q ++ lineTrace n t := by
  rw [lineTrace_step h, stepActions_of_busy hc (hq ▸ hp), hq]

/-- The last line of pulse `k`. -/
theorem lineTrace_lo {s : State} {k : Nat} (hc : s.eng.cur ≠ .none) (hq : s.eng.seq = .lo k) :
    lineTrace 1 s = exchangeActions (.lo k) :=
  (lineTrace_of_busy (step_lo hc hq) hc hq (by simp) 0).trans (List.append_nil _)

/-- The last two lines of pulse `k`. -/
theorem lineTrace_smp {s : State} {k : Nat} (hc : s.eng.cur ≠ .none) (hq : s.eng.seq = .smp k) :
    lineTrace 2 s = exchangeActions (.smp k) ++ exchangeActions (.lo k) := by
  refine (lineTrace_of_busy (step_smp hc hq) hc hq (by simp) 1).trans (congrArg (_ ++ ·) (lineTrace_lo ?_ rfl))
  exact hc

theorem lineTrace_pulse {s : State} {k : Nat} (hc : s.eng.cur ≠ .none) (hq : s.eng.seq = .hi k) :
    lineTrace 3 s = pulseActions k := by
  rw [pulseActions_eq]
  refine (lineTrace_of_busy (step_hi hc hq) hc hq (by simp) 2).trans (congrArg (_ ++ ·) (lineTrace_smp ?_ rfl))
  exact hc

/-- The trace grows by one pulse at a time. -/
theorem lineTrace_pulses_succ {s : State} (hc : s.eng.cur ≠ .none) (hq : s.eng.seq = .hi 1) {j : Nat}
    (hj : j < pulses s.eng.gain) : lineTrace (3 * (j + 1)) s = lineTrace (3 * j) s ++ pulseActions (j + 1) := by
  rw [Nat.mul_succ, lineTrace_add (runFor_pulses hc hq hj.le),
    lineTrace_pulse (by rwa [afterPulses_cur]) (afterPulses_seq hq hj)]

/-- The data pulses come first. -/
theorem lineTrace_dataPulses {s : State} (hc : s.eng.cur ≠ .none) (hq : s.eng.seq = .hi 1) {j : Nat} (hj : j ≤ nData) :
    lineTrace (3 * j) s = copies j dataPulse := by
  induction j with
  | zero => rfl
  | succ j ih =>
    rw [lineTrace_pulses_succ hc hq (Nat.lt_of_lt_of_le hj (nData_le_pulses _)), ih (by omega), copies_succ,
      pulseActions, if_pos hj]

/-- The gain pulses follow the 24 data pulses. -/
theorem lineTrace_gainPulses {s : State} (hc : s.eng.cur ≠ .none) (hq : s.eng.seq = .hi 1) {m : Nat}
    (hm : m ≤ s.eng.gain.toNat) : lineTrace (3 * (nData + m)) s = copies nData dataPulse ++ copies m gainPulse := by
  induction m with
  | zero => simpa [copies] using lineTrace_dataPulses hc hq (Nat.le_refl nData)
  | succ m ih =>
    rw [← Nat.add_assoc, lineTrace_pulses_succ hc hq (Nat.add_lt_add_left hm nData), ih (by omega), copies_succ,
      pulseActions, if_neg (by omega), List.append_assoc]

/-- Settles O19: the train's trace, and its holds and samples counted pulse by pulse. -/
theorem exchangeTraceOnTheLines : Obligations.ExchangeTraceOnTheLines := by
  intro s hc hq
  have htrace : lineTrace (3 * (24 + s.eng.gain.toNat)) s = copies 24 dataPulse ++ copies s.eng.gain.toNat gainPulse :=
    lineTrace_gainPulses hc hq (Nat.le_refl _)
  have hdelay : dataPulse.count .delay = 2 ∧ gainPulse.count .delay = 2 := by decide
  have hsample : dataPulse.count .sample = 1 ∧ gainPulse.count .sample = 0 := by decide
  refine ⟨htrace, ?_, ?_⟩
  · rw [htrace, List.count_append, count_copies, count_copies, hdelay.1, hdelay.2]
    omega
  · rw [htrace, List.count_append, count_copies, count_copies, hsample.1, hsample.2]
    omega

end Sys2Proof.Machine

/-!
PROOFS. The marks of a broken contract (R74, R112): everything a step can do to them, and what follows for runs.
-/

namespace Sys2Proof.Machine

/-- The operations that R112 bars are TARE and NEW. -/
theorem barredInHandler_iff (i : Instr) : barredInHandler i = true ↔ i = .tare ∨ ∃ arg, i = .new arg := by
  cases i <;> simp [barredInHandler]

/-- Taking a word from the port leaves the mark of R74, and sets that of R112 only with a barred operation of the handler's. -/
theorem takeCommand_marks (c : Command) (s : State) :
    (takeCommand c s).state.port.notReadyRead = s.port.notReadyRead ∧
    ((takeCommand c s).state.port.irqBreach = s.port.irqBreach ∨
      ((takeCommand c s).state.port.irqBreach = true ∧ s.port.ctx = .irq ∧
        ∃ i u, takeCommand c s = .run i u ∧ barredInHandler i = true)) := by
  rcases takeCommand_cases c s with ⟨i, -, hs⟩ | hs <;> rw [hs]
  · refine ⟨rfl, ?_⟩
    by_cases hbar : s.port.ctx = .irq ∧ barredInHandler i = true
    · exact .inr ⟨by simp [Selected.state, noteBreach, hbar], hbar.1, i, _, rfl, hbar.2⟩
    · exact .inl (by simpa [Selected.state, noteBreach] using fun hx hb => absurd ⟨hx, hb⟩ hbar)
  · exact ⟨rfl, .inl rfl⟩

/-- Every choice of what to run leaves the mark of R74, and only taking a barred operation from the handler sets that of R112. -/
theorem select_marks (s : State) :
    (select s).state.port.notReadyRead = s.port.notReadyRead ∧
    ((select s).state.port.irqBreach = s.port.irqBreach ∨
      ((select s).state.port.irqBreach = true ∧ s.port.ctx = .irq ∧
        ∃ i u, select s = .run i u ∧ barredInHandler i = true)) := by
  rcases select_cases s with ⟨-, hs⟩ | ⟨-, hs⟩ | ⟨-, -, hmain⟩ | ⟨-, -, hhandler⟩
  · rw [hs]; exact ⟨rfl, .inl rfl⟩
  · rw [hs]; exact ⟨rfl, .inl rfl⟩
  · rcases hmain with ⟨-, hs⟩ | ⟨-, -, hs⟩ | ⟨-, c, r, -, hs⟩ <;> rw [hs]
    · exact ⟨rfl, .inl rfl⟩
    · exact ⟨rfl, .inl rfl⟩
    · exact takeCommand_marks c (withCmds r s)
  · rcases hhandler with ⟨-, hs⟩ | ⟨r, -, hs⟩ | ⟨r, -, ⟨-, hs⟩ | ⟨-, hs⟩⟩ | ⟨c, r, -, hs⟩ <;> rw [hs]
    · exact ⟨rfl, .inl rfl⟩
    · exact ⟨rfl, .inl rfl⟩
    · exact ⟨rfl, .inl rfl⟩
    · exact ⟨rfl, .inl rfl⟩
    · exact takeCommand_marks c (withTodo r s)

/-- Everything a step can do to the marks: each stays, or it is set for the one cause it stands for. -/
theorem step_marks {s t : State} (h : step s = .next t) :
    (t.port.notReadyRead = s.port.notReadyRead ∨
      (t.port.notReadyRead = true ∧ ∃ u, select s = .run .read u ∧ Working u ∧ sample u = 1#1)) ∧
    (t.port.irqBreach = s.port.irqBreach ∨
      (t.port.irqBreach = true ∧ s.port.ctx = .irq ∧ ∃ i u, select s = .run i u ∧ barredInHandler i = true)) := by
  obtain ⟨u, hu, rfl⟩ := step_eq_next h
  obtain ⟨hread, hbreach⟩ := select_marks s
  rw [passGap_port]
  rw [turn] at hu
  cases hs : select s with
  | run i v =>
    simp only [hs, Selected.state] at hu hread hbreach
    obtain ⟨-, -, -, hb, hr⟩ := exec_outside hu
    rw [hb]
    refine ⟨hr.imp (·.trans hread) ?_, hbreach⟩
    rintro ⟨rfl, hw, hd, hmark⟩
    exact ⟨hmark, v, rfl, hw, hd⟩
  | badCommand v =>
    simp only [hs, Selected.state] at hu hread hbreach
    have hport : u.port.notReadyRead = v.port.notReadyRead ∧ u.port.irqBreach = v.port.irqBreach := by
      rcases accept_cases hu with ⟨-, hb⟩ | ⟨-, rfl⟩
      · cases hb
        exact ⟨rfl, rfl⟩
      · exact ⟨rfl, rfl⟩
    rw [hport.1, hport.2]
    exact ⟨.inl hread, hbreach⟩
  | host v =>
    simp only [hs, Selected.state] at hu hread hbreach
    cases hu
    exact ⟨.inl hread, hbreach⟩

/-- Settles O52: a mark that is newly set has its cause. -/
theorem contractBrokenOnlyByTheHost : Obligations.ContractBrokenOnlyByTheHost := by
  rintro s t hst ⟨hread, hbreach⟩ hbroken
  obtain ⟨hr | ⟨-, hcause⟩, hb | ⟨-, hirq, i, u, hsel, hbar⟩⟩ := step_marks hst
  · exact absurd ⟨hr.trans hread, hb.trans hbreach⟩ hbroken
  · exact .inr ⟨hirq, i, u, hsel, (barredInHandler_iff i).1 hbar⟩
  · exact .inl hcause
  · exact .inl hcause

/-- No step clears a mark. -/
theorem step_keeps_marks {s t : State} (h : step s = .next t) :
    (s.port.notReadyRead = true → t.port.notReadyRead = true) ∧ (s.port.irqBreach = true → t.port.irqBreach = true) := by
  obtain ⟨hr, hb⟩ := step_marks h
  exact ⟨fun hs => hr.elim (·.trans hs) And.left, fun hs => hb.elim (·.trans hs) And.left⟩

/-- Settles O53: by induction on the run. -/
theorem marksAreNeverCleared : Obligations.MarksAreNeverCleared := by
  intro n
  induction n with
  | zero =>
    rintro s t ⟨⟩
    exact ⟨id, id⟩
  | succ n ih =>
    intro s t hrun
    obtain ⟨u, hu, hr⟩ := runFor_succ_eq_next hrun
    obtain ⟨hread, hbreach⟩ := step_keeps_marks hu
    obtain ⟨hread', hbreach'⟩ := ih u t hr
    exact ⟨hread' ∘ hread, hbreach' ∘ hbreach⟩

end Sys2Proof.Machine

/-!
PROOFS. The reading cache and calibration (R81 to R86): the accessors, TARE's start, its polls, its commit step, and its whole run.
-/

namespace Sys2Proof.Machine

/-! ### The accessors (R84, R85) -/

/-- Settles O16: on a working engine the body of the accessor runs. -/
theorem getOffsetAnswersOffset : Obligations.GetOffsetAnswersOffset :=
  fun s hw => ⟨whenBuilt_working hw (respond s.eng.offset s), rfl⟩

/-- Settles O17: so does that of the other accessor. -/
theorem getLastAnswersLastValue : Obligations.GetLastAnswersLastValue :=
  fun s hw => ⟨whenBuilt_working hw (respond s.eng.lastValue s), rfl⟩

/-! ### TARE's start (R81) -/

/-- On an engine that no operation owns TARE does nothing on the lines. -/
theorem actionsOf_tare_of_cur_none {s : State} (h : s.eng.cur = .none) : actionsOf .tare s = [] := by
  simp [actionsOf, h]

/-- Settles O26: TARE's start is `beginTare`, which asks nothing of the line. -/
theorem tareStartsWaiting : Obligations.TareStartsWaiting :=
  fun _ hw => ⟨execTare_of_working hw, actionsOf_tare_of_cur_none hw.1.1⟩

/-! ### One poll (R82) -/

theorem pollOnce_of_high {s : State} (h : sample s = 1#1) : pollOnce s = .next s := by
  simp [pollOnce, h]

theorem pollOnce_of_low {s : State} (h : sample s = 0#1) : pollOnce s = .next (beginExchange .tare s) := by
  simp [pollOnce, h]

/-- An operation that owns the sequence already writes only `sh`, `seq` and the response when its exchange begins. -/
theorem beginExchange_of_cur {s : State} {op : Cur} (h : s.eng.cur = op) :
    beginExchange op s =
      { s with eng := { s.eng with sh := 0#24, seq := .hi 1 }, port := { s.port with resp := none } } := by
  subst h
  rfl

theorem actionsOf_tare_of_poll {s : State} (hc : s.eng.cur = .tare) (hp : s.eng.seq = .poll) :
    actionsOf .tare s = [.sample] := by
  simp [actionsOf, hc, hp]

/-- Settles O27: at `POLL` TARE is one poll, whose low sample begins the exchange. -/
theorem pollStaysOrMovesOn : Obligations.PollStaysOrMovesOn := by
  intro s hc hp
  have hx : exec .tare s = pollOnce s := execTare_of_poll hc hp
  refine ⟨fun hd => hx.trans (pollOnce_of_high hd), fun hd => ?_, sample_of_configured, actionsOf_tare_of_poll hc hp⟩
  rw [hx, pollOnce_of_low hd, beginExchange_of_cur hc]

/-! ### The commit step and the run (R81 to R83, R99) -/

/-- Settles O28: at `COMMIT` TARE runs its commit step. -/
theorem tareCommits : Obligations.TareCommits := fun _ hc hm => execTare_of_commit hc hm

/-- Settles O29: the polls that see the line high, the exchange and the commit step, with `raw` left in `sh`. -/
theorem tareRunsToItsResponse : Obligations.TareRunsToItsResponse :=
  fun _ raw _ hw hl hhigh hlow hd => ⟨raw, issueAndRun_tare hw hl hhigh hlow hd⟩

/-- Settles O30: the issue goes to `POLL`, and from there each poll sees the line high. -/
theorem tareWaitsWithoutBound : Obligations.TareWaitsWithoutBound := by
  intro s n hw hl hhigh
  have hsamples : ∀ j, j < n → sampleAfter j (passGap (beginTare s)) = 1#1 := fun j hj =>
    (sampleAfter_of_configured (s := passGap (beginTare s)) hl j).trans (hhigh j hj)
  exact (issueAndRun_of_exec (execTare_of_working hw) n).trans (runFor_polls rfl rfl hsamples)

end Sys2Proof.Machine

/-!
PROOFS. Construction (R89 to R91): what NEW answers on an idle engine, by the gain of its `arg` and by whether the engine is constructed.
-/

namespace Sys2Proof.Machine

/-- Settles O10: the registers that `execNew_constructs` names, with the machine's free choice for `last_value`. -/
theorem newConstructs : Obligations.NewConstructs := by
  intro s arg g hi hc hrow
  exact ⟨Config.lastInit s.env.tick, execNew_constructs hi hc (gainPulses_of_row hrow)⟩

/-- Settles O12: on a constructed engine the first check of NEW fails, whatever `arg` is. -/
theorem secondNewRejected : Obligations.SecondNewRejected :=
  fun _ arg hi hc => execNew_built hi hc arg

/-- Only the three rows of the gain table have an image (R62). -/
theorem gainPulses_eq_none {arg : BitVec 8} (h128 : arg ≠ 128#8) (h64 : arg ≠ 64#8) (h32 : arg ≠ 32#8) :
    gainPulses arg = none := by
  rw [← Option.not_isSome_iff_eq_none, gainPulses_isSome_iff]
  simp [h128, h64, h32]

/-- A NEW without a gain drives no line, on any engine (R90). -/
theorem actionsOf_new_of_no_gain {arg : BitVec 8} (hg : gainPulses arg = none) (s : State) :
    actionsOf (.new arg) s = [] := by
  simp [actionsOf, hg]

/-- Settles O11: the second check of NEW fails, and the engine that it leaves is still idle and unconstructed, so that
`execNew_constructs` holds of it. -/
theorem badGainRejected : Obligations.BadGainRejected := by
  intro s arg hi hc h128 h64 h32
  have hg : gainPulses arg = none := gainPulses_eq_none h128 h64 h32
  refine ⟨withResp (some (errResponse .gain)) s, execNew_of_no_gain hi hc hg, rfl, actionsOf_new_of_no_gain hg s, ?_⟩
  intro arg' g hrow
  exact ⟨_, execNew_constructs hi hc (gainPulses_of_row hrow), rfl, rfl, rfl⟩

end Sys2Proof.Machine

/-!
PROOFS. Errors leave no trace (R63, R64, R98): a rejected operation is its `reject`, and on an idle engine no meaning reads the response.
-/

namespace Sys2Proof.Machine

/-! ### What a rejected operation does (R98) -/

/-- An operation that answers an error is rejected, and does nothing on the lines. -/
theorem exec_of_error {i : Instr} {s t : State} {e : ErrName} (hi : Idle s) (h : exec i s = .next t)
    (he : t.port.resp = some (errResponse e)) : (∃ e', exec i s = reject e' s) ∧ actionsOf i s = [] := by
  rcases exec_error hi h he with ⟨arg, rfl, hfail⟩ | ⟨hnew, hc⟩
  · cases hc : s.eng.constructed with
    | true => exact ⟨⟨.state, execNew_built hi hc arg⟩, by simp [actionsOf, whenAccepted, hc]⟩
    | false =>
      have hg : gainPulses arg = none := by simpa [hc] using hfail
      exact ⟨⟨.gain, execNew_of_no_gain hi hc hg⟩, actionsOf_new_of_no_gain hg s⟩
  · obtain ⟨hx, ha⟩ := othersRejectedBeforeConstruction s i hi hc hnew
    exact ⟨⟨.state, hx⟩, ha⟩

theorem stepActions_of_select_badCommand {s u : State} (h : select s = .badCommand u) : stepActions s = [] := by
  simp [stepActions, h]

/-- Between operations the interrupt context issues the word it has next (R112). -/
theorem select_irq_issue {s : State} {c : Command} {r : List HandlerStep} (hc : s.eng.cur = .none) (hx : s.port.ctx = .irq)
    (ht : s.port.todo = .issue c :: r) : select s = takeCommand c (withTodo r s) := by
  rw [select_irq hc hx, handlerTurn, ht]

/-! ### The next operation (R98) -/

theorem reject_withResp (e : ErrName) (r : Option Response) (s : State) : reject e (withResp r s) = reject e s := rfl

/-- On an idle engine the checks of every operation but NEW do not read the response. -/
theorem whenBuilt_withResp {s : State} (hi : Idle s) (r : Option Response) {b b' : Answer} (hb : b' = b) :
    whenBuilt (withResp r s) b' = whenBuilt s b := by
  rw [whenBuilt, whenBuilt, accept_idle hi, accept_idle (s := withResp r s) hi, hb, withResp_eng, reject_withResp]

theorem execNew_withResp {s : State} (hi : Idle s) (r : Option Response) (arg : BitVec 8) :
    execNew arg (withResp r s) = execNew arg s := by
  rw [execNew, execNew, accept_idle hi, accept_idle (s := withResp r s) hi]
  rfl

/-- On an idle engine no operation reads the response, and each writes it. -/
theorem exec_withResp {s : State} (hi : Idle s) (r : Option Response) (j : Instr) : exec j (withResp r s) = exec j s := by
  cases j with
  | new arg => exact execNew_withResp hi r arg
  | isReady => exact whenBuilt_withResp hi r rfl
  | read =>
    rw [exec, exec, execRead_of_cur_none hi.1, execRead_of_cur_none (s := withResp r s) hi.1]
    exact whenBuilt_withResp hi r rfl
  | tare =>
    rw [exec, exec, execTare_of_cur_none hi.1, execTare_of_cur_none (s := withResp r s) hi.1]
    exact whenBuilt_withResp hi r rfl
  | getOffset => exact whenBuilt_withResp hi r rfl
  | getLast => exact whenBuilt_withResp hi r rfl

/-- Settles O14: an error is a `reject`, which writes the response alone, and an idle engine's next operation does not read it. -/
theorem errorsLeaveNoTrace : Obligations.ErrorsLeaveNoTrace := by
  constructor
  · intro s t i e hi hx he
    obtain ⟨⟨e', hrej⟩, hacts⟩ := exec_of_error hi hx he
    cases hrej.symm.trans hx
    exact ⟨rfl, rfl, rfl, hacts, exec_withResp hi _⟩
  · intro s bare c hi hd hissuer
    have hsel : select s = .badCommand bare ∧ Idle bare := by
      rcases hissuer with ⟨hm, he, r, hq, rfl⟩ | ⟨hx, r, ht, rfl⟩
      · exact ⟨(select_main hi.1 hm he hq).trans (takeCommand_of_not_instr hd _), hi⟩
      · exact ⟨(select_irq_issue hi.1 hx ht).trans (takeCommand_of_not_instr hd _), hi⟩
    obtain ⟨hbad, hbare⟩ := hsel
    exact ⟨_, turn_of_select_badCommand hbad hbare, rfl, stepActions_of_select_badCommand hbad, exec_withResp hbare _⟩

end Sys2Proof.Machine

/-!
PROOFS. Where holds and drives of the clock line occur (R32, R38, R113): everything an operation can do on the lines, at any state.
-/

namespace Sys2Proof.Machine

/-- A line of the exchange holds once in a half of a pulse, and nowhere else (R113). -/
theorem delay_mem_exchangeActions {q : Seq} (h : LineAction.delay ∈ exchangeActions q) :
    (∃ k, q = .hi k ∨ q = .lo k) ∧ (exchangeActions q).count .delay = 1 := by
  cases q with
  | hi k => exact ⟨⟨k, .inl rfl⟩, rfl⟩
  | lo k => exact ⟨⟨k, .inr rfl⟩, rfl⟩
  | smp k => by_cases hk : k ≤ nData <;> simp [exchangeActions, hk] at h
  | idle | poll | commit => simp [exchangeActions] at h

/-- A line of the exchange drives high in the first half of a pulse, low in the second, and nowhere else (R32). -/
theorem drive_mem_exchangeActions {q : Seq} {v : Bit} (h : LineAction.drive v ∈ exchangeActions q) :
    ∃ k, (v = 1#1 ∧ q = .hi k) ∨ (v = 0#1 ∧ q = .lo k) := by
  cases q with
  | hi k => exact ⟨k, .inl ⟨by simpa [exchangeActions] using h, rfl⟩⟩
  | lo k => exact ⟨k, .inr ⟨by simpa [exchangeActions] using h, rfl⟩⟩
  | smp k => by_cases hk : k ≤ nData <;> simp [exchangeActions, hk] at h
  | idle | poll | commit => simp [exchangeActions] at h

/-- What an operation accepted only on an idle engine does on the lines. -/
theorem whenAccepted_cases (built : Bool) (s : State) (acts : List LineAction) :
    whenAccepted built s acts = [] ∨ (Idle s ∧ s.eng.constructed = built ∧ whenAccepted built s acts = acts) := by
  by_cases h : s.eng.cur = .none ∧ s.eng.seq = .idle ∧ s.eng.constructed = built
  · exact .inr ⟨⟨h.1, h.2.1⟩, h.2.2, if_pos h⟩
  · exact .inl (if_neg h)

/-- Everything an operation can do on the lines (R38): at most a sample, a line of the exchange, or the drive of a NEW that passes its
checks. -/
theorem actionsOf_cases (i : Instr) (s : State) :
    actionsOf i s = [] ∨ actionsOf i s = [.sample] ∨
    (s.eng.cur ≠ .none ∧ actionsOf i s = exchangeActions s.eng.seq) ∨
    (∃ arg g, i = .new arg ∧ gainPulses arg = some g ∧ Idle s ∧ s.eng.constructed = false ∧
      actionsOf i s = [.drive 0#1]) := by
  cases i with
  | new arg =>
    cases hg : gainPulses arg with
    | none => exact .inl (actionsOf_new_of_no_gain hg s)
    | some g =>
      have ha : actionsOf (.new arg) s = whenAccepted false s [.drive 0#1] := if_pos (by simp [hg])
      rw [ha]
      rcases whenAccepted_cases false s [.drive 0#1] with h0 | ⟨hi, hc, h1⟩
      · exact .inl h0
      · exact .inr (.inr (.inr ⟨arg, g, rfl, hg, hi, hc, h1⟩))
  | isReady => exact (actionsOf_isReady_cases s).imp_right .inl
  | read =>
    cases hc : s.eng.cur with
    | none =>
      have ha : actionsOf .read s = whenAccepted true s [.sample] := by simp [actionsOf, hc]
      rw [ha]
      exact (whenAccepted_cases true s [.sample]).imp_right fun h => .inl h.2.2
    | read => exact .inr (.inr (.inl ⟨by simp, by simp [actionsOf, hc]⟩))
    | tare => exact .inl (by simp [actionsOf, hc])
  | tare =>
    cases hc : s.eng.cur with
    | none => exact .inl (actionsOf_tare_of_cur_none hc)
    | read => exact .inl (by simp [actionsOf, hc])
    | tare =>
      by_cases hp : s.eng.seq = .poll
      · exact .inr (.inl (actionsOf_tare_of_poll hc hp))
      · exact .inr (.inr (.inl ⟨by simp, by simp [actionsOf, hc, hp]⟩))
  | getOffset | getLast => exact .inl rfl

/-- Everything a step can do on the lines. -/
theorem stepActions_cases (s : State) :
    stepActions s = [] ∨ stepActions s = [.sample] ∨
    (s.eng.cur ≠ .none ∧ stepActions s = exchangeActions s.eng.seq) ∨
    (stepActions s = [.drive 0#1] ∧ s.eng.constructed = false ∧ ∃ t, step s = .next t ∧ t.eng.constructed = true) := by
  have heng := (select_state s).1
  cases hs : select s with
  | badCommand u => exact .inl (stepActions_of_select_badCommand hs)
  | host u => exact .inl (by simp [stepActions, hs])
  | run i u =>
    have ha : stepActions s = actionsOf i u := by simp [stepActions, hs]
    simp only [hs, Selected.state] at heng
    rw [ha, ← heng]
    rcases actionsOf_cases i u with h | h | h | ⟨arg, g, rfl, hg, hi, hc, h⟩
    · exact .inl h
    · exact .inr (.inl h)
    · exact .inr (.inr (.inl h))
    · have hstep := (step_of_select_run hs).trans (congrArg thenGap (execNew_constructs hi hc hg))
      exact .inr (.inr (.inr ⟨h, hc, _, hstep, rfl⟩))

/-- Settles O21: of everything a step can do on the lines only a line of the exchange holds, and only it and NEW drive. -/
theorem holdsAndDrivesOnlyInPulses : Obligations.HoldsAndDrivesOnlyInPulses := by
  intro s
  rcases stepActions_cases s with h | h | ⟨hc, h⟩ | ⟨h, hnew⟩
  · simp [h]
  · simp [h]
  · rw [h]
    refine ⟨fun hm => ?_, fun v hm => .inl ⟨hc, drive_mem_exchangeActions hm⟩⟩
    obtain ⟨hhalf, hone⟩ := delay_mem_exchangeActions hm
    exact ⟨hc, hhalf, hone⟩
  · rw [h]
    exact ⟨by simp, fun v hm => .inr ⟨by simpa using hm, hnew⟩⟩

end Sys2Proof.Machine

/-!
PROOFS. The two contexts (R111): the engine does not see which one issues, so every meaning goes through a change of it.
-/

namespace Sys2Proof.Machine

@[simp] theorem withCtx_eng (c : Context) (s : State) : (withCtx c s).eng = s.eng := rfl
@[simp] theorem sample_withCtx (c : Context) (s : State) : sample (withCtx c s) = sample s := rfl

theorem execNew_withCtx {arg : BitVec 8} {s t : State} (c : Context) (h : execNew arg s = .next t) :
    execNew arg (withCtx c s) = .next (withCtx c t) := by
  rcases execNew_cases h with ⟨hi, hc, rfl⟩ | ⟨hi, hc, hg, rfl⟩ | ⟨g, hi, hc, hg, rfl⟩ | ⟨hn, rfl⟩
  · exact execNew_built (s := withCtx c s) hi hc arg
  · exact execNew_of_no_gain (s := withCtx c s) hi hc hg
  · exact execNew_constructs (s := withCtx c s) hi hc hg
  · exact accept_busy (s := withCtx c t) hn _

/-- Both outcomes of a not-ready READ are alike (R74). -/
theorem readNotReady_withCtx {s t : State} (c : Context) (h : readNotReady s = .next t) :
    readNotReady (withCtx c s) = .next (withCtx c t) := by
  cases hu : Config.ungatedRead s.env.tick with
  | true =>
    cases (if_pos hu).symm.trans h
    exact if_pos hu
  | false =>
    have hn : ¬Config.ungatedRead s.env.tick = true := by simp [hu]
    cases (if_neg hn).symm.trans h
    exact if_neg hn

theorem execRead_withCtx {s t : State} (c : Context) (h : execRead s = .next t) :
    execRead (withCtx c s) = .next (withCtx c t) := by
  cases hc : s.eng.cur with
  | none =>
    rw [execRead_of_cur_none hc] at h
    rw [execRead_of_cur_none (s := withCtx c s) hc]
    refine whenBuilt_commutes (withCtx_eng c) (fun _ _ => rfl) h fun _ hb => ?_
    rw [sample_withCtx]
    split at hb
    · next hlow =>
      cases hb
      exact if_pos hlow
    · next hhigh => exact (if_neg hhigh).trans (readNotReady_withCtx c hb)
  | read =>
    by_cases hm : s.eng.seq = .commit
    · cases (execRead_of_commit hc hm).symm.trans h
      exact execRead_of_commit (s := withCtx c s) hc hm
    · obtain ⟨e, hl, rfl⟩ := exchangeOn_cases ((execRead_of_ne_commit hc hm).symm.trans h)
      exact exec_of_exchangeLine (s := withCtx c s) (.inl ⟨rfl, hc⟩) hl
  | tare =>
    cases (execRead_of_cur_tare hc).symm.trans h
    exact execRead_of_cur_tare (s := withCtx c s) hc

theorem execTare_withCtx {s t : State} (c : Context) (h : execTare s = .next t) :
    execTare (withCtx c s) = .next (withCtx c t) := by
  rcases execTare_cases h with
    ⟨hc, hm, rfl⟩ | ⟨hc, hp, hd, rfl⟩ | ⟨hc, hp, hd, rfl⟩ | ⟨hc, e, hl, rfl⟩ | ⟨hw, rfl⟩ | ⟨hi, hb, rfl⟩ | ⟨hc, rfl⟩
  · exact execTare_of_commit (s := withCtx c s) hc hm
  · exact (execTare_of_poll (s := withCtx c s) hc hp).trans (pollOnce_of_low hd)
  · exact (execTare_of_poll (s := withCtx c t) hc hp).trans (pollOnce_of_high hd)
  · exact exec_of_exchangeLine (s := withCtx c s) (.inr ⟨rfl, hc⟩) hl
  · exact execTare_of_working (s := withCtx c s) hw
  · exact (execTare_of_cur_none (s := withCtx c s) hi.1).trans (whenBuilt_unbuilt (s := withCtx c s) hi hb _)
  · exact execTare_of_cur_read (s := withCtx c t) hc

/-- Settles O41: an accessor's body is over the engine and the sample, and the rest is said above. -/
theorem contextsAreAlike : Obligations.ContextsAreAlike := by
  intro s t i c h
  cases i with
  | new arg => exact execNew_withCtx c h
  | read => exact execRead_withCtx c h
  | tare => exact execTare_withCtx c h
  | isReady | getOffset | getLast =>
    refine whenBuilt_commutes (withCtx_eng c) (fun _ _ => rfl) h fun _ hb => ?_
    cases hb
    rfl

end Sys2Proof.Machine

/-!
PROOFS. The ready interrupt (R101, R104 to R108, R112): the latch, the entry of the handler, and what the handler issues.
-/

namespace Sys2Proof.Machine

/-! ### What a turn leaves of the contexts and the outside -/

/-- After the choice of what to run, a turn leaves the outside and the context. -/
theorem turn_outside {s u : State} (h : turn s = .next u) :
    u.env = (select s).state.env ∧ u.port.ctx = (select s).state.port.ctx := by
  rw [turn] at h
  cases hs : select s with
  | run i v =>
    simp only [hs] at h
    obtain ⟨henv, hctx, -⟩ := exec_outside h
    exact ⟨henv, hctx⟩
  | badCommand v =>
    simp only [hs] at h
    rcases accept_cases h with ⟨-, hb⟩ | ⟨-, rfl⟩
    · cases hb
      exact ⟨rfl, rfl⟩
    · exact ⟨rfl, rfl⟩
  | host v =>
    simp only [hs] at h
    cases h
    exact ⟨rfl, rfl⟩

/-- The handler's entry is chosen between operations, in the main context, when it is allowed (R106). -/
abbrev Enters (s : State) : Prop :=
  s.eng.cur = .none ∧ s.port.ctx = .main ∧ entersHandler s = true

theorem select_of_enters {s : State} (h : Enters s) : select s = .host (enterHandler s) := by
  obtain ⟨hc, hm, he⟩ := h
  simp [select, hc, hm, mainTurn, he]

theorem takeCommand_ctx (c : Command) (s : State) : (takeCommand c s).state.port.ctx = s.port.ctx := by
  rcases takeCommand_cases c s with ⟨i, -, hs⟩ | hs <;> rw [hs] <;> rfl

/-- Every other choice leaves the latch, the level of the line and the coming gap, and enters no handler. -/
theorem select_of_not_enters {s : State} (h : ¬Enters s) :
    (select s).state.env.irqPend = s.env.irqPend ∧ (select s).state.env.dout = s.env.dout ∧
    nextGap (select s).state.env = nextGap s.env ∧
    (s.port.ctx = .main → (select s).state.port.ctx = .main) := by
  rcases select_cases s with ⟨-, hs⟩ | ⟨-, hs⟩ | ⟨hc, hm, hmain⟩ | ⟨-, -, hhandler⟩
  · rw [hs]; exact ⟨rfl, rfl, rfl, id⟩
  · rw [hs]; exact ⟨rfl, rfl, rfl, id⟩
  · rcases hmain with ⟨he, -⟩ | ⟨-, -, hs⟩ | ⟨-, c, r, -, hs⟩
    · exact absurd ⟨hc, hm, he⟩ h
    · rw [hs]; exact ⟨rfl, rfl, rfl, id⟩
    · rw [hs, (takeCommand_state c _).2, takeCommand_ctx]
      exact ⟨rfl, rfl, rfl, id⟩
  · rcases hhandler with ⟨-, hs⟩ | ⟨r, -, hs⟩ | ⟨r, -, ⟨-, hs⟩ | ⟨-, hs⟩⟩ | ⟨c, r, -, hs⟩
    · rw [hs]; exact ⟨rfl, rfl, rfl, fun _ => rfl⟩
    · rw [hs]; exact ⟨rfl, rfl, rfl, id⟩
    · rw [hs]; exact ⟨rfl, rfl, rfl, id⟩
    · rw [hs]; exact ⟨rfl, rfl, rfl, id⟩
    · rw [hs, (takeCommand_state c _).2, takeCommand_ctx]
      exact ⟨rfl, rfl, rfl, id⟩

/-- The choice of what to run leaves the line and the coming gap, and clears the latch exactly when the handler is entered (R106). -/
theorem select_latch (s : State) :
    ((select s).state.env.irqPend = true ↔ s.env.irqPend = true ∧ ¬Enters s) ∧
    (select s).state.env.dout = s.env.dout ∧ nextGap (select s).state.env = nextGap s.env := by
  by_cases h : Enters s
  · rw [select_of_enters h]
    exact ⟨by simp [Selected.state, h], rfl, rfl⟩
  · obtain ⟨hpend, hdout, hgap, -⟩ := select_of_not_enters h
    exact ⟨by simp [hpend, h], hdout, hgap⟩

/-- Settles O45: the turn leaves what the choice leaves of the latch, and the gap adds its falling edge. -/
theorem latchHoldsTheFallingEdge : Obligations.LatchHoldsTheFallingEdge := by
  intro s t hst
  obtain ⟨u, hu, rfl⟩ := step_eq_next hst
  obtain ⟨hpend, hdout, hgap⟩ := select_latch s
  rw [passGap_env, (turn_outside hu).1, advance_irqPend, Bool.or_eq_true, hdout, hgap, hpend, edgeSeen_iff]

/-- Settles O47: no other choice than the entry leaves the main context for the handler's. -/
theorem handlerEnteredOnlyWhenAllowed : Obligations.HandlerEnteredOnlyWhenAllowed := by
  intro s t hm hst hirq
  obtain ⟨u, hu, rfl⟩ := step_eq_next hst
  have henters : Enters s := by
    by_contra h
    obtain ⟨-, -, -, hctx⟩ := select_of_not_enters h
    rw [passGap_port, (turn_outside hu).2, hctx hm] at hirq
    cases hirq
  obtain ⟨hc, -, he⟩ := henters
  simp only [entersHandler, Bool.and_eq_true] at he
  exact ⟨he.1.1, he.1.2, hc⟩

/-! ### The entry, and who goes first (R101, R106) -/

theorem step_of_enters {s : State} (h : Enters s) : step s = .next (passGap (enterHandler s)) :=
  step_of_select_host (select_of_enters h)

/-- Settles O46: no command is there to go first. -/
theorem handlerEntryChangesOnlyTheContext : Obligations.HandlerEntryChangesOnlyTheContext := by
  intro s hi hm hp hen hq
  exact step_of_enters ⟨hi.1, hm, by simp [entersHandler, hp, hen, hq]⟩

/-- With a command at the port `handlerFirst` decides. -/
theorem entersHandler_of_cmds {s : State} {c : Command} {r : List Command} (hp : s.env.irqPend = true)
    (hen : s.env.irqEnabled = true) (hq : s.env.cmds = c :: r) : entersHandler s = s.env.handlerFirst := by
  simp [entersHandler, hp, hen, hq]

/-- Settles O48: `handlerFirst` decides, and a command that goes first is run or answered as without the interrupt. -/
theorem eitherMayGoFirst : Obligations.EitherMayGoFirst := by
  intro s c r hi hm hp hen hq
  have hfirst := entersHandler_of_cmds hp hen hq
  refine ⟨fun h => step_of_enters ⟨hi.1, hm, hfirst.trans h⟩, fun h => ⟨fun i hd => ?_, fun hd => ?_⟩⟩
  · exact stepRunsTheDecodedOperation.1 s c r i hi hm (hfirst.trans h) hq hd
  · exact congrArg thenGap (turn_of_not_instr_main hd hi hm (hfirst.trans h) hq)

/-- Settles O51: the step is one of the clauses of `stepRunsTheDecodedOperation`. -/
theorem handlerTareIsMarkedAndRuns : Obligations.HandlerTareIsMarkedAndRuns := by
  intro s c r i hi hx ht hd
  obtain ⟨-, -, -, hissue, -⟩ := stepRunsTheDecodedOperation
  exact ⟨hissue s r c i hi hx ht hd, barredInHandler_iff i⟩

/-! ### SERVICE (R107, R109) -/

/-- `s` in the handler, which has `todo` left and has seen the response `r`, with the outside at `env`. -/
def serving (todo : List HandlerStep) (r : Option Response) (env : Env) (s : State) : State :=
  { s with port := { s.port with ctx := .irq, todo := todo, resp := r }, env := env }

/-- The handler that has nothing left returns (R109). -/
theorem step_of_served {s : State} {r : Option Response} {env : Env} (hi : Idle s) :
    step (serving [] r env s) = .next
      { s with port := { s.port with ctx := .main, todo := [], resp := r }, env := advance env } :=
  step_of_select_host ((select_irq (s := serving [] r env s) hi.1 rfl).trans rfl)

/-- SERVICE's IS_READY answers the level of the line (R72, R107). -/
theorem step_of_serving_isReady {s : State} {todo : List HandlerStep} {r : Option Response} {env : Env} (hw : Working s)
    (hl : env.configured = true) :
    step (serving (.isReady :: todo) r env s) = .next
      (serving todo (some (okResponse (boolWord (isLow env.dout)))) (advance env) s) := by
  obtain ⟨-, hready, -⟩ := stepRunsTheDecodedOperation
  have hissue := hready (serving (.isReady :: todo) r env s) todo hw.1 rfl rfl
  have hanswer : exec .isReady (serving todo r env s) =
      respond (boolWord (isLow (sample (serving todo r env s)))) (serving todo r env s) :=
    whenBuilt_working (s := serving todo r env s) hw _
  rw [sample_of_configured (s := serving todo r env s) hl] at hanswer
  exact hissue.trans (congrArg thenGap hanswer)

/-- The entry and the IS_READY of SERVICE, which sees the level `b`. -/
theorem runFor_entry_isReady {s : State} {b : Bit} (hw : Working s) (hl : LinesConfigured s) (hm : s.port.ctx = .main)
    (he : entersHandler s = true) (hh : s.env.handler = [.isReady, .readIfReady])
    (hb : levelAfter 1 (enterHandler s).env = b) :
    runFor 2 s = .next
      (serving [.readIfReady] (some (okResponse (boolWord (isLow b)))) (after 2 (enterHandler s).env) s) := by
  have hentry : passGap (enterHandler s) =
      serving [.isReady, .readIfReady] s.port.resp (after 1 (enterHandler s).env) s := by
    rw [← hh]
    rfl
  rw [runFor_step (step_of_enters ⟨hw.1.1, hm, he⟩), hentry, ← hb]
  exact runFor_step (step_of_serving_isReady (env := after 1 (enterHandler s).env) hw hl) 0

/-- Settles O49: IS_READY answers false, so the second act passes and the handler returns. -/
theorem serviceNotReadyReadsNothing : Obligations.ServiceNotReadyReadsNothing := by
  rintro s _ hw hl hm he hh rfl hhigh
  obtain ⟨-, -, hact, -⟩ := stepRunsTheDecodedOperation
  have hbegin := runFor_entry_isReady hw hl hm he hh hhigh
  have hpass := (hact (serving [.readIfReady] (some 0#34) (after 2 (enterHandler s).env) s) [] hw.1 rfl rfl).2
    (show some 0#34 ≠ some 1#34 by decide)
  exact (runFor_add hbegin 2).trans ((runFor_step hpass 1).trans (runFor_step (step_of_served hw.1) 0))

/-- A step that issues `i` begins its run. -/
theorem runFor_of_issue {s u : State} {i : Instr} (h : step s = thenGap (exec i u)) (k : Nat) :
    runFor (k + 1) s = issueAndRun i k u := by
  rw [runFor, h]
  rfl

/-- After the answer of true SERVICE's READ is issued, and runs to its response (R73, R107). -/
theorem runFor_serving_read {s : State} {env : Env} {raw : Raw} (hw : Working s) (hl : env.configured = true)
    (hgate : env.dout = 0#1) (hd : Delivers raw env) :
    ∃ sh' : Raw, runFor (exchangeSteps s.eng.gain + 1) (serving [.readIfReady] (some 1#34) env s) = .next
      (serving [] (some (0#2 ++ (sext24 raw - s.eng.offset))) (after (exchangeSteps s.eng.gain + 1) env)
        { s with eng := { s.eng with lastValue := sext24 raw - s.eng.offset, sh := sh', sck := 0#1 } }) := by
  obtain ⟨-, -, hact, -⟩ := stepRunsTheDecodedOperation
  have hissue := (hact (serving [.readIfReady] (some 1#34) env s) [] hw.1 rfl rfl).1 rfl
  obtain ⟨-, sh', hrun⟩ := readRunsToItsResponse (serving [] (some 1#34) env s) raw hw hl hgate hd
  exact ⟨sh', (runFor_of_issue hissue _).trans hrun⟩

/-- Settles O50: IS_READY answers true, the READ runs to its response, and the handler returns. -/
theorem serviceReadyReadsOnce : Obligations.ServiceReadyReadsOnce := by
  rintro s _ raw hw hl hm he hh rfl hlow hgate hd
  have hbegin := runFor_entry_isReady hw hl hm he hh hlow
  obtain ⟨sh', hread⟩ := runFor_serving_read (env := after 2 (enterHandler s).env) hw hl hgate hd
  have hsteps : exchangeSteps s.eng.gain + 4 = 2 + (exchangeSteps s.eng.gain + 1 + 1) := by omega
  refine ⟨sh', ?_⟩
  rw [hsteps, after_add, after_succ, runFor_add hbegin]
  refine (runFor_add hread 1).trans (runFor_step (step_of_served ?_) 0)
  exact hw.1

end Sys2Proof.Machine

/-!
PROOFS. The launch premise (R127): no step writes it, so no run does (log 26).
-/

namespace Sys2Proof.Machine

/-- No run configures the lines or undoes it: each of its steps leaves the premise as it was. -/
theorem runFor_configured {n : Nat} {s t : State} (h : runFor n s = .next t) : t.env.configured = s.env.configured := by
  induction n generalizing s with
  | zero =>
    cases h
    rfl
  | succ n ih =>
    obtain ⟨u, hu, hrest⟩ := runFor_succ_eq_next h
    exact (ih hrest).trans (step_configured hu)

/-- Settles O58: the premise reads only what every run leaves as it was. -/
theorem launchPremiseIsKept : Obligations.LaunchPremiseIsKept :=
  fun _ _ _ hrun => Eq.congr_left (runFor_configured hrun)

end Sys2Proof.Machine
